-- ==== Sys2Proof/Word.lean ====
section
/-! DEFINITION. The word types of the MS32-DE: every register and command word has 32 bits (spec R9, R80), a character of
the digest one byte (R170). -/

namespace Sys2Proof

/-- A 32-bit register value or command word, bit 0 least significant (R9, R14). -/
abbrev Word := BitVec 32

/-- One character of the digest as its ASCII code (R170). -/
abbrev Byte := BitVec 8

end Sys2Proof
end

