-- ==== Sys2Proof/Machine/Constants.lean ====
section
/-! DEFINITION. The wired constants of R8, each under a name of its own (R11), taken letter for letter from the spec
(log entry 12). -/

namespace Sys2Proof.Machine

/-- The modulus M = 2^32 − 1 of every reduction (R8). -/
def Const.M : Nat := 0xFFFFFFFF

/-- PRIME, the Step 1 multiplier (R8). -/
def Const.prime : Nat := 31

/-- The Step 1 position cycle (R8). -/
def Const.cycle : Nat := 8

/-- The Step 1 fold shift (R8). -/
def Const.foldShift : Nat := 16

/-- The number of avalanche rounds of Step 2 (R8). -/
def Const.rounds : Nat := 3

/-- The left shift of sub-step L13 (R8, R143). -/
def Const.shiftL13 : Nat := 13

/-- The right shift of sub-step R7 (R8, R143). -/
def Const.shiftR7 : Nat := 7

/-- The left shift of sub-step L17 (R8, R143). -/
def Const.shiftL17 : Nat := 17

/-- K_GOLD, the Step 3 segment offset (R8). -/
def Const.kGold : Nat := 0x9E3779B9

/-- K_MIX1, the first Step 3 multiplier (R8). -/
def Const.kMix1 : Nat := 0x85EBCA6B

/-- K_MIX2, the second Step 3 multiplier, 0x2b2ae35 as the source writes it (R8, R11). -/
def Const.kMix2 : Nat := 0x02B2AE35

/-- The Step 3 shifts, in order: 16, 13, 16 (R8). -/
def Const.segShift1 : Nat := 16

def Const.segShift2 : Nat := 13

def Const.segShift3 : Nat := 16

/-- The number of segments, index i = 0, 1, 2, 3 (R8). Reducible, since SEG0 to SEG3 are indexed by it. -/
abbrev Const.segments : Nat := 4

/-- The characters of each segment (R8: "32 characters, 8 per segment"). -/
abbrev Const.charsPerSegment : Nat := 8

/-- The digest length in characters (R8); `Laws/Format.lean` relates it to the two constants above. -/
abbrev Const.digestLength : Nat := 32

/-- The largest code point ABSORB accepts (R81, R85). -/
def Const.maxCodePoint : Nat := 0x10FFFF

/-- The placeholder ROM: the 12 code points of `empty_string`, in order (R141; R8 and 90_conflicts.md C1 fix the length). -/
def Const.rom : List Nat :=
  [0x65, 0x6D, 0x70, 0x74, 0x79, 0x5F, 0x73, 0x74, 0x72, 0x69, 0x6E, 0x67]

end Sys2Proof.Machine
end

