-- ==== Sys2Proof/Syntax.lean ====
section
/-! DEFINITION. The command set: one constructor per row of spec/opcode_table.json (R82, R210: "the four commands … are
the whole command set"). -/

namespace Sys2Proof

/-- A decoded command word. -/
inductive Instr where
  /-- NOP (R100). -/
  | nop
  /-- INIT (R101). -/
  | init
  /-- ABSORB with its 21-bit CP field (R80, R81, R120). -/
  | absorb (cp : BitVec 21)
  /-- FINALIZE (R140). -/
  | finalize
  deriving DecidableEq, Repr

end Sys2Proof
end

