-- ==== Sys2Proof/WellFormed.lean ====
section
/-! DEFINITION. Which commands are well formed: the value condition of the opcode map (R82), which is also the operand an
assembler accepts (R88). Log entry 18. -/

namespace Sys2Proof

/-- R82: ABSORB's row has "the further value condition CP ≤ 0x10FFFF"; the other rows have none. An ABSORB outside it still
decodes, and executing it records E_CP_RANGE in its turn (R85). -/
def Instr.wf : Instr → Bool
  | .nop => true
  | .init => true
  | .absorb cp => decide (cp.toNat ≤ Machine.Const.maxCodePoint)
  | .finalize => true

end Sys2Proof
end

