-- ==== Sys2Proof/Decode.lean ====
section
/-! DEFINITION. Decoding a command word, total on every 32-bit word and rejecting by name (R80 to R86), and the encoder
written from the same table. -/

namespace Sys2Proof

/-- Why a word is no command (R83, R84). -/
inductive DecodeError where
  /-- OP in 0x04 to 0xFF (R83). -/
  | reservedOpcode
  /-- A defined OP whose reserved bits are not all 0 (R84). -/
  | reservedBits
  deriving DecidableEq, Repr

/-- OP, `w[31:24]` (R80). -/
def opField (w : Word) : BitVec 8 := w.extractLsb' 24 8

/-- RSV, `w[23:21]` (R80). -/
def rsvField (w : Word) : BitVec 3 := w.extractLsb' 21 3

/-- CP, `w[20:0]` (R80, R81). -/
def cpField (w : Word) : BitVec 21 := w.extractLsb' 0 21

/-- `w[23:0]`, the reserved bits of every operation but ABSORB (R84). -/
def low24Field (w : Word) : BitVec 24 := w.extractLsb' 0 24

def opNop : BitVec 8 := 0x00#8
def opInit : BitVec 8 := 0x01#8
def opAbsorb : BitVec 8 := 0x02#8
def opFinalize : BitVec 8 := 0x03#8

/-- The command a word stands for: the first three checks of R85, in their order, and its `case op`. It reads no state
(R86). -/
def decode (w : Word) : Except DecodeError Instr :=
  if opField w > opFinalize then .error .reservedOpcode
  else if opField w = opAbsorb ∧ rsvField w ≠ 0#3 then .error .reservedBits
  else if opField w ≠ opAbsorb ∧ low24Field w ≠ 0#24 then .error .reservedBits
  else if opField w = opNop then .ok .nop
  else if opField w = opInit then .ok .init
  else if opField w = opAbsorb then .ok (.absorb (cpField w))
  else .ok .finalize

/-- Format C: OP, RSV = 0 and CP, high bit first (R80). -/
def packCommand (op : BitVec 8) (cp : BitVec 21) : Word := op ++ (0#3 ++ cp)

/-- The word of a command (R80, R82). -/
def encode : Instr → Word
  | .nop => packCommand opNop 0#21
  | .init => packCommand opInit 0#21
  | .absorb cp => packCommand opAbsorb cp
  | .finalize => packCommand opFinalize 0#21

/-- One row of the opcode map as a match and mask pair over the whole word (R82). -/
structure OpRow where
  pattern : Word
  mask : Word
  deriving DecidableEq, Repr

def OpRow.accepts (r : OpRow) (w : Word) : Bool := w &&& r.mask == r.pattern

/-- The match and mask pairs of R82. -/
def nopRow : OpRow := ⟨0x00000000#32, 0xFFFFFFFF#32⟩
def initRow : OpRow := ⟨0x01000000#32, 0xFFFFFFFF#32⟩
def absorbRow : OpRow := ⟨0x02000000#32, 0xFFE00000#32⟩
def finalizeRow : OpRow := ⟨0x03000000#32, 0xFFFFFFFF#32⟩

/-- The command word held in the low `nbits` bits of `w`, zero above; a command is exactly one 32-bit word (R86), so a wider
row is none of this block's. Log entry 15. -/
def tableWord (nbits w : Nat) : Option Word :=
  if nbits ≤ 32 then some (BitVec.ofNat 32 (w % 2 ^ nbits)) else none

/-- The instruction the decoder reads from a table row's bits (the host's interface). -/
def decodeTableWord (nbits w : Nat) : Option Instr :=
  match tableWord nbits w with
  | none => none
  | some word =>
    match decode word with
    | .ok i => some i
    | .error _ => none

end Sys2Proof
end

