-- ==== Sys2Proof/Machine/State.lean ====
section
/-! DEFINITION. The state of one MS32-DE instance as plain data, the host's events, the command errors, and reset. -/

namespace Sys2Proof.Machine

/-- The block never traps and never faults: "There are no traps" (R206), "No computation error exists" (R200). So there is
no reason to stop with a fault: nobody raises one (safe). Command errors are state (R202). Log entry 7. -/
inductive Fault where
  deriving DecidableEq, Repr

/-- Why the model gives a host event no meaning. -/
inductive Refusal where
  /-- Raised by exec's arm of an instruction without a meaning (safe); no arm raises it in this model. -/
  | notModelled (mnemonic : String)
  /-- Raised by a transaction R52 does not define: another size than 4 bytes, a misaligned offset or one outside the
  window. R52: "A model refuses such an access". Safe. Log entry 8. -/
  | undefinedAccess
  /-- Raised by a reset that arrives during a transaction. R231: "not defined by this spec, and a model refuses it". Safe.
  Log entry 9. -/
  | resetDuringTransaction
  deriving DecidableEq, Repr

/-- The five command errors (R201). -/
inductive CmdError where
  /-- OP in 0x04 to 0xFF (R83). -/
  | opcode
  /-- Reserved bits of a defined opcode are not 0 (R84). -/
  | reserved
  /-- ABSORB while DONE = 1. -/
  | absorbDone
  /-- FINALIZE while DONE = 1. -/
  | finalDone
  /-- ABSORB with CP > 0x10FFFF (R81). -/
  | cpRange
  deriving DecidableEq, Repr

/-- One host transaction (R15, R52). `off` is relative to BASE_ADDR (log entry 4) and may lie outside the window; `size`
is in bytes. R52 defines only aligned accesses of size 4 inside the window; the value of a write is then its 32 bits. -/
inductive Transaction where
  | read (off : Int) (size : Nat)
  | write (off : Int) (size : Nat) (value : Word)
  deriving DecidableEq, Repr

/-- What the outside can do to the block (R64). -/
inductive HostEvent where
  | transaction (t : Transaction)
  /-- The reset event between two transactions (R230, R231). -/
  | reset
  /-- A reset that arrives while `t` is being performed (R231, U6). -/
  | resetDuring (t : Transaction)
  deriving DecidableEq, Repr

/-- The value a read returned to the host, with the offset it was read at (R53). -/
structure Response where
  off : Int
  value : Word
  deriving DecidableEq, Repr

/-- The architectural state: "exactly the following, and nothing else" (R20). -/
structure Engine where
  /-- ACC (R23). -/
  acc : Word
  /-- POS (R24). -/
  pos : BitVec 3
  /-- SEEN (R25). -/
  seen : Bool
  /-- DONE, the phase (R26). -/
  done : Bool
  /-- ERR (R27). -/
  err : Bool
  /-- ERRCODE (R28). -/
  errCode : BitVec 4
  /-- SEG0 to SEG3 (R29). -/
  seg0 : Word
  seg1 : Word
  seg2 : Word
  seg3 : Word
  deriving DecidableEq, Repr

/-- The reset values of R36. -/
def Engine.reset : Engine :=
  { acc := 0x00000000#32, pos := 0#3, seen := false, done := false, err := false, errCode := 0#4,
    seg0 := 0x00000000#32, seg1 := 0x00000000#32, seg2 := 0x00000000#32, seg3 := 0x00000000#32 }

/-- The machine: the block's own state and, beside it, the host's side of the interface. -/
structure State where
  /-- The architectural state of R20. -/
  engine : Engine
  /-- The host's events not yet performed, in the order the host issues them, oldest first (R58, R64; log entry 1). -/
  pending : List HostEvent
  /-- The values reads have returned to the host, newest first (R53, R64; log entry 2). -/
  responses : List Response
  deriving DecidableEq, Repr

/-- Right after reset: R36 for the block; the host has issued nothing yet (log entries 1, 2 and 14). -/
def State.reset : State := { engine := Engine.reset, pending := [], responses := [] }

end Sys2Proof.Machine
end

