-- ==== Sys2Proof/Machine/Flags.lean ====
section
/-! DEFINITION. The flags: the STATUS word and who writes its fields (R32, R33), the error record (R201, R202) and the
position and presence update (R124). -/

namespace Sys2Proof.Machine

/-- The code ERRCODE holds for a command error (R201). -/
def CmdError.code : CmdError → BitVec 4
  | .opcode => 1#4
  | .reserved => 2#4
  | .absorbDone => 3#4
  | .finalDone => 4#4
  | .cpRange => 5#4

/-- A flag as a 32-bit value. -/
def flagWord (b : Bool) : Word := (BitVec.ofBool b).setWidth 32

/-- R32: `zext_32(DONE OR (SEEN << 1) OR (POS << 2) OR (ERR << 8) OR (ERRCODE << 12))`. -/
def Engine.status (e : Engine) : Word :=
  flagWord e.done ||| (flagWord e.seen <<< 1) ||| (e.pos.setWidth 32 <<< 2) |||
    (flagWord e.err <<< 8) ||| (e.errCode.setWidth 32 <<< 12)

/-- R202: record the error if none is recorded; "otherwise ERR and ERRCODE keep the first error". -/
def Engine.recordError (c : CmdError) (e : Engine) : Engine :=
  if e.err then e else { e with err := true, errCode := c.code }

/-- R124: `POS <- (POS + 1) mod 8` and `SEEN <- 1`, 8 being the position cycle of R8. -/
def Engine.advance (e : Engine) : Engine :=
  { e with pos := BitVec.ofNat 3 ((e.pos.toNat + 1) % Const.cycle), seen := true }

/-- R26, R140: FINALIZE enters the DONE phase. -/
def Engine.markDone (e : Engine) : Engine := { e with done := true }

end Sys2Proof.Machine
end

