-- ==== Sys2Proof/Machine/Operands.lean ====
section
/-! DEFINITION. The operand forms. The only operand of a command is ABSORB's CP field (R80, R81); the only operands a
command reads from state are ACC, POS and SEEN (R21, R120, R140). -/

namespace Sys2Proof.Machine

/-- R81: CP is `zext_32(w[20:0])`, "with no sign extension, no scaling and no shift at decode". -/
def codePoint (cp : BitVec 21) : Nat := cp.toNat

/-- R81, R85: ABSORB accepts CP values up to 0x10FFFF, surrogates included. -/
def codePointInRange (cp : BitVec 21) : Bool := decide (codePoint cp ≤ Const.maxCodePoint)

/-- ACC as a natural number (R12, R23). -/
def Engine.accNat (e : Engine) : Nat := e.acc.toNat

/-- POS, the shift distance of Step 1 (R24). -/
def Engine.posNat (e : Engine) : Nat := e.pos.toNat

/-- SEGi (R29). -/
def Engine.seg (e : Engine) : Fin Const.segments → Word
  | 0 => e.seg0
  | 1 => e.seg1
  | 2 => e.seg2
  | 3 => e.seg3

/-- SEG0 to SEG3 written together (R29: "FINALIZE writes all four at once"). -/
def Engine.writeSegs (f : Fin Const.segments → Word) (e : Engine) : Engine :=
  { e with seg0 := f 0, seg1 := f 1, seg2 := f 2, seg3 := f 3 }

end Sys2Proof.Machine
end

