-- ==== Sys2Proof/Machine/Ops.lean ====
section
/-! DEFINITION. The named operations over the state that the meanings and the transactions share. -/

namespace Sys2Proof.Machine

/-- The same interface with another engine. -/
def State.withEngine (s : State) (e : Engine) : State := { s with engine := e }

/-- `raise CmdError(code)` (R202), the block's whole "trap entry" (R206): it writes ERR and ERRCODE if ERR was 0 and nothing
else. There is no return from it; INIT and reset clear it (R207). -/
def raiseCmdError (c : CmdError) (s : State) : State := s.withEngine (s.engine.recordError c)

/-- A command that is ignored while poisoned changes no state (R204). -/
def ignorePoisoned (s : State) : State := s

/-- The reset event writes every element with its reset value (R230); what the host still has to issue stays. -/
def resetEngine (s : State) : State := s.withEngine Engine.reset

/-- A read hands its value to the host (R53). -/
def respond (off : Int) (value : Word) (s : State) : State :=
  { s with responses := ⟨off, value⟩ :: s.responses }

/-- No event is pending: state is kept (R215). Log entry 3. -/
def idle (s : State) : State := s

end Sys2Proof.Machine
end

