-- ==== Sys2Proof/Machine/Control.lean ====
section
/-! DEFINITION. The control commands NOP and INIT (40_control.md). -/

namespace Sys2Proof.Machine

/-- R100: `skip`. No state element changes, in every phase and whatever ERR is. -/
def execNop (s : State) : Host.Outcome State Fault Refusal := .next s

/-- R101's pseudocode: 0 to every element. -/
def Engine.init (_e : Engine) : Engine :=
  { acc := 0#32, pos := 0#3, seen := false, done := false, err := false, errCode := 0#4,
    seg0 := 0#32, seg1 := 0#32, seg2 := 0#32, seg3 := 0#32 }

/-- R101: performed in any phase, "even while poisoned". -/
def execInit (s : State) : Host.Outcome State Fault Refusal := .next (s.withEngine s.engine.init)

end Sys2Proof.Machine
end

