-- ==== Sys2Proof/Machine/Absorb.lean ====
section
/-! DEFINITION. ABSORB and the Step 1 datapath (41_absorb.md). Every intermediate value is a natural number (R12). -/

namespace Sys2Proof.Machine

/-- R122: the position-dependent barrel shifter, `v << pos`, no bit lost. -/
def barrelShift (pos v : Nat) : Nat := v <<< pos

/-- R123: `t = acc·31 + shifted`, exact. -/
def multiplyAdd (acc shifted : Nat) : Nat := acc * Const.prime + shifted

/-- R121: `u XOR (u >> 16)`. -/
def foldHalves (u : Nat) : Nat := u ^^^ (u >>> Const.foldShift)

/-- MIX (R121): both reductions are by M, the one after the multiply-add and the one after the XOR. -/
def mix (acc pos v : Nat) : Nat :=
  foldHalves (multiplyAdd acc (barrelShift pos v) % Const.M) % Const.M

/-- Step 1 over a sequence whose first code point has position i: "left shift … cycling every 8 characters" (R24, R142). -/
def mixFrom (i acc : Nat) : List Nat → Nat
  | [] => acc
  | v :: vs => mixFrom (i + 1) (mix acc (i % Const.cycle) v) vs

/-- R120's pseudocode. -/
def Engine.absorb (v : Nat) (e : Engine) : Engine :=
  { e with acc := BitVec.ofNat 32 (mix e.accNat e.posNat v) }.advance

/-- ABSORB: the state checks of R85 in their order, then R120. -/
def execAbsorb (cp : BitVec 21) (s : State) : Host.Outcome State Fault Refusal :=
  if s.engine.err then .next (ignorePoisoned s)
  else if s.engine.done then .next (raiseCmdError .absorbDone s)
  else if codePointInRange cp then .next (s.withEngine (s.engine.absorb (codePoint cp)))
  else .next (raiseCmdError .cpRange s)

end Sys2Proof.Machine
end

