-- ==== Sys2Proof/Machine/Finalize.lean ====
section
/-! DEFINITION. FINALIZE: Step 0, the avalanche of Step 2 and the segments of Step 3 (42_finalize.md). -/

namespace Sys2Proof.Machine

/-- PLACEHOLDER_ACC (R142): Step 1 over the placeholder ROM from ACC = 0 and POS = 0. -/
def placeholderAcc : Nat := mixFrom 0 0 Const.rom

/-- Sub-step L13 (R143): only the shifted operand is reduced (R144). -/
def subL13 (a : Nat) : Nat := a ^^^ ((a <<< Const.shiftL13) % Const.M)

/-- Sub-step R7 (R143). -/
def subR7 (a : Nat) : Nat := a ^^^ ((a >>> Const.shiftR7) % Const.M)

/-- Sub-step L17 (R143). -/
def subL17 (a : Nat) : Nat := a ^^^ ((a <<< Const.shiftL17) % Const.M)

/-- One round of Step 2. -/
def avalancheRound (a : Nat) : Nat := subL17 (subR7 (subL13 a))

/-- `n` rounds of Step 2. -/
def avalancheRounds : Nat → Nat → Nat
  | 0, a => a
  | n + 1, a => avalancheRounds n (avalancheRound a)

/-- AVALANCHE (R143): "NOT reduced mod M". -/
def avalanche (a : Nat) : Nat := avalancheRounds Const.rounds a

/-- Line 1 of SEGMENT (R147). -/
def segOffset (a i : Nat) : Nat := (a + i * Const.kGold) % Const.M

/-- Lines 2 and 3 of SEGMENT (R147): XOR-fold by `k`, multiply, reduce. -/
def segMultiply (k mult s : Nat) : Nat := ((s ^^^ (s >>> k)) * mult) % Const.M

/-- Line 4 of SEGMENT (R147). -/
def segFold (s : Nat) : Nat := (s ^^^ (s >>> Const.segShift3)) % Const.M

/-- SEGMENT (R147). -/
def segmentExpand (a i : Nat) : Nat :=
  segFold (segMultiply Const.segShift2 Const.kMix2 (segMultiply Const.segShift1 Const.kMix1 (segOffset a i)))

/-- Step 0 (R142): the placeholder stands in for a message in which nothing was absorbed. -/
def Engine.messageAcc (e : Engine) : Nat := if e.seen then e.accNat else placeholderAcc

/-- R140, R148: every segment is computed from the same Step 2 result. -/
def Engine.latch (a : Nat) (e : Engine) : Engine :=
  { e with acc := BitVec.ofNat 32 a }.writeSegs (fun i => BitVec.ofNat 32 (segmentExpand a i.val))

/-- R140's pseudocode. -/
def Engine.finalize (e : Engine) : Engine := (e.latch (avalanche e.messageAcc)).markDone

/-- FINALIZE: the state checks of R85 in their order, then R140. -/
def execFinalize (s : State) : Host.Outcome State Fault Refusal :=
  if s.engine.err then .next (ignorePoisoned s)
  else if s.engine.done then .next (raiseCmdError .finalDone s)
  else .next (s.withEngine s.engine.finalize)

end Sys2Proof.Machine
end

