-- ==== Sys2Proof/Config.lean ====
section
/-! DEFINITION. The four parameters the spec leaves open (R10, R37). Each is an uninterpreted constant: a claim is true
whatever its value, and no command changes one. "None of them changes any value a rule computes" (R10). -/

namespace Sys2Proof

/-- The pin that delivers reset: its polarity and whether it is synchronous (R10, R230). -/
structure ResetStyle where
  activeHigh : Bool
  synchronous : Bool
  deriving DecidableEq, Repr, Inhabited

/-- BASE_ADDR: where the host places the register window (R10, R50, R65). Log entry 4. -/
opaque Config.baseAddr : Nat

/-- BUS_PROTOCOL, as far as a rule speaks of it: which byte lane of a 32-bit value the bus shows at byte address k of
its word (R10, R56). Log entry 5. -/
opaque Config.busLaneOfByte : Fin 4 → Fin 4

/-- RESET_STYLE (R10, R230). Log entry 5. -/
opaque Config.resetStyle : ResetStyle

/-- LAT_CMD: the clock cycles a command takes, which may differ per OP field (R10, R236). No rule reads it, and the model
has no time. Log entries 5 and 16. -/
opaque Config.latCmd : BitVec 8 → Nat

end Sys2Proof
end

