-- ==== Sys2Proof/Machine/Format.lean ====
section
/-! DEFINITION. The hex segment formatter and the digest readout (43_format.md): a combinational view of SEG0 to SEG3. -/

namespace Sys2Proof.Machine

/-- HEXCHAR (R170): the ASCII code of a lowercase hexadecimal digit. -/
def hexChar (d : BitVec 4) : Byte :=
  if d < 10#4 then 0x30#8 + d.setWidth 8 else 0x57#8 + d.setWidth 8

/-- `s[31 - 4k : 28 - 4k]` (R171). -/
def nibble (s : Word) (k : Nat) : BitVec 4 := s.extractLsb' (28 - 4 * k) 4

/-- FORMAT8 (R171): the characters of a segment, the most significant nibble first. -/
def format8 (s : Word) : List Byte := (List.range Const.charsPerSegment).map (fun k => hexChar (nibble s k))

/-- Steps 3 and 4 as text: the segments' groups "in order i = 0,1,2,3" (R172), capped at the digest length (R174: "the cap
never removes one"). -/
def joinSegments (seg : Fin Const.segments → Word) : List Byte :=
  ((List.finRange Const.segments).flatMap (fun i => format8 (seg i))).take Const.digestLength

/-- The digest string of the current segments (R172, R175). -/
def Engine.digest (e : Engine) : List Byte := joinSegments e.seg

/-- Character j lies in segment j div 8, and there is such a segment (R172). -/
theorem segment_of_char (j : Fin Const.digestLength) : j.val / Const.charsPerSegment < Const.segments := by
  have := j.isLt
  simp only [Const.digestLength, Const.charsPerSegment, Const.segments] at this ⊢
  omega

/-- `D[j]` (R172): `FORMAT8(SEG(j div 8))[j mod 8]`, for j in 0 to 31. -/
def Engine.digestChar (e : Engine) (j : Fin Const.digestLength) : Byte :=
  hexChar (nibble (e.seg ⟨j.val / Const.charsPerSegment, segment_of_char j⟩) (j.val % Const.charsPerSegment))

/-- The digest position 4n+k of character k of HEXn (R173). -/
def charIndex (n : Fin 8) (k : Fin 4) : Fin Const.digestLength :=
  ⟨4 * n.val + k.val, show 4 * n.val + k.val < 32 by omega⟩

/-- The read value of HEXn (R173), the first of its four characters in bits [7:0]. -/
def Engine.hexWord (e : Engine) (n : Fin 8) : Word :=
  (e.digestChar (charIndex n 0)).setWidth 32
    ||| ((e.digestChar (charIndex n 1)).setWidth 32 <<< 8)
    ||| ((e.digestChar (charIndex n 2)).setWidth 32 <<< 16)
    ||| ((e.digestChar (charIndex n 3)).setWidth 32 <<< 24)

/-- The bytes a little-endian host stores for a word, lowest address first (R56). -/
def littleEndianBytes (w : Word) : List Byte :=
  [w.extractLsb' 0 8, w.extractLsb' 8 8, w.extractLsb' 16 8, w.extractLsb' 24 8]

end Sys2Proof.Machine
end

