-- ==== Sys2Proof/Machine/Window.lean ====
section
/-! DEFINITION. The register window: the register map (R51), which accesses exist (R52), what a read returns (R53, R55),
and addresses (R65). -/

namespace Sys2Proof.Machine

/-- A word of the register map (R51). -/
inductive Reg where
  | cmd
  | status
  | acc
  /-- The reserved word at offset 0x0C. -/
  | reserved
  | seg (i : Fin 4)
  | hex (n : Fin 8)
  deriving DecidableEq, Repr

/-- The offset of a register (R51). -/
def Reg.offset : Reg → Int
  | .cmd => 0x00
  | .status => 0x04
  | .acc => 0x08
  | .reserved => 0x0C
  | .seg i => 0x10 + 4 * i.val
  | .hex n => 0x20 + 4 * n.val

/-- The sixteen words of the window in the order of their offsets (R50, R51). -/
def Reg.ofIndex (k : Nat) : Option Reg :=
  if k = 0 then some .cmd
  else if k = 1 then some .status
  else if k = 2 then some .acc
  else if k = 3 then some .reserved
  else if h : k - 4 < 4 then some (.seg ⟨k - 4, h⟩)
  else if h : k - 8 < 8 then some (.hex ⟨k - 8, h⟩)
  else none

/-- The register an access reaches, if R52 defines the access: 4 bytes wide, `off mod 4 = 0` and `0x00 ≤ off ≤ 0x3C`. -/
def resolve (off : Int) (size : Nat) : Option Reg :=
  if size = 4 ∧ off % 4 = 0 ∧ 0 ≤ off ∧ off ≤ 0x3C then Reg.ofIndex (off / 4).toNat else none

/-- What a read of a register returns, "computed from the state at the moment the read is performed" (R51, R53, R55). -/
def readReg (r : Reg) (e : Engine) : Word :=
  match r with
  | .cmd => 0x00000000#32
  | .status => e.status
  | .acc => e.acc
  | .reserved => 0x00000000#32
  | .seg i => e.seg i
  | .hex n => e.hexWord n

/-- R65: "The only effective-address computation is BASE_ADDR + off". -/
def effectiveAddr (off : Int) : Int := (Config.baseAddr : Int) + off

/-- The offset of a bus address. -/
def offsetOf (addr : Int) : Int := addr - (Config.baseAddr : Int)

/-- `MemRead(addr, size)` as a host event (R15). -/
def memRead (addr : Int) (size : Nat) : HostEvent := .transaction (.read (offsetOf addr) size)

/-- `MemWrite(addr, size, v)` as a host event (R15). -/
def memWrite (addr : Int) (size : Nat) (v : Word) : HostEvent :=
  .transaction (.write (offsetOf addr) size v)

/-- The byte the bus shows at byte address k of a 32-bit value: the mapping is BUS_PROTOCOL's (R56), and no rule reads it. -/
def busByte (v : Word) (k : Fin 4) : Byte := v.extractLsb' (8 * (Config.busLaneOfByte k).val) 8

end Sys2Proof.Machine
end

