-- ==== Sys2Proof/Machine/Transaction.lean ====
section
/-! DEFINITION. Performing one host event: a command write (R85), a register read or write (R51 to R55), the reset event
(R230, R231). Each is one atomic step (R57). -/

namespace Sys2Proof.Machine

/-- The error an illegal word records (R83, R84). -/
def illegalWordError : DecodeError → CmdError
  | .reservedOpcode => .opcode
  | .reservedBits => .reserved

/-- `MemWrite(0x00, 4, w)` (R85): the decode checks, then the command. An illegal word records its error even while
poisoned or DONE, subject to R202. -/
def performCommand (w : Word) (s : State) : Host.Outcome State Fault Refusal :=
  match decode w with
  | .error e => .next (raiseCmdError (illegalWordError e) s)
  | .ok i => exec i s

/-- `MemRead(off, 4)` of a register of the window (R51, R53). -/
def performRead (r : Reg) (s : State) : Host.Outcome State Fault Refusal :=
  .next (respond r.offset (readReg r s.engine) s)

/-- `MemWrite(off, 4, v)` to a register of the window: "The only offset whose write has a side effect is CMD" (R54). -/
def performWrite (r : Reg) (v : Word) (s : State) : Host.Outcome State Fault Refusal :=
  match r with
  | .cmd => performCommand v s
  | .status => .next s
  | .acc => .next s
  | .reserved => .next s
  | .seg _ => .next s
  | .hex _ => .next s

/-- One transaction; one that R52 does not define is refused. -/
def performTransaction (t : Transaction) (s : State) : Host.Outcome State Fault Refusal :=
  match t with
  | .read off size =>
    match resolve off size with
    | some r => performRead r s
    | none => .refused .undefinedAccess
  | .write off size v =>
    match resolve off size with
    | some r => performWrite r v s
    | none => .refused .undefinedAccess

/-- One host event (R64). -/
def performEvent (ev : HostEvent) (s : State) : Host.Outcome State Fault Refusal :=
  match ev with
  | .transaction t => performTransaction t s
  | .reset => .next (resetEngine s)
  | .resetDuring _ => .refused .resetDuringTransaction

/-- The host event that writes a word to CMD (R64, R85). -/
def commandEvent (w : Word) : HostEvent := .transaction (.write Reg.cmd.offset 4 w)

/-- The events of one message (R232): INIT, one ABSORB per code point in order, FINALIZE. -/
def messageEvents (cps : List (BitVec 21)) : List HostEvent :=
  commandEvent (encode .init) ::
    (cps.map (fun cp => commandEvent (encode (.absorb cp))) ++ [commandEvent (encode .finalize)])

end Sys2Proof.Machine
end

