-- ==== Sys2Proof/Machine/Step.lean ====
section
/-! DEFINITION. One step of the machine: the oldest pending host event is performed (R57, R58). -/

namespace Sys2Proof.Machine

/-- Perform the oldest pending event; with none pending the block keeps its state (log entries 1 and 3). -/
def step (s : State) : Host.Outcome State Fault Refusal :=
  match s.pending with
  | [] => .next (idle s)
  | ev :: rest => performEvent ev { s with pending := rest }

/-- `n` steps, stopping at the first that does not answer a next state. -/
def stepN : Nat → State → Host.Outcome State Fault Refusal
  | 0, s => .next s
  | n + 1, s =>
    match step s with
    | .next t => stepN n t
    | .fault r => .fault r
    | .refused r => .refused r

/-- The command word of a table row becomes the oldest pending event, so that the very next step performs it (log entry 1).
A row wider than a command leaves the state alone (log entry 15). -/
def State.withFetchWord (s : State) (nbits w : Nat) : State :=
  match tableWord nbits w with
  | some word => { s with pending := commandEvent word :: s.pending }
  | none => s

end Sys2Proof.Machine
end

