-- ==== Sys2Proof/Machine/Assembler.lean ====
section
/-! DEFINITION. The assembly syntax of command streams (R88) and the pseudo-instructions (R89): the abstract lines, their
expansion into host events, and the reading of a line's text. Lexical points the spec does not settle: log entry 17. -/

namespace Sys2Proof.Machine

/-- One line of a command stream (R88, R89). -/
inductive AsmLine where
  | nop
  | init
  /-- `ABSORB n`, and `ABSORB 'c'` and `ABSORB U+XXXX`, which stand for it. -/
  | absorb (n : Nat)
  | finalize
  /-- `.word v`: "the raw 32-bit word v, written to CMD as it stands". -/
  | word (v : Nat)
  /-- `RD <name>`. -/
  | rd (r : Reg)
  /-- `WR <name>, v`, a transaction other than a CMD write. -/
  | wr (r : Reg) (v : Nat)
  /-- `ABSORBS "s"`, the text as its code points. -/
  | absorbs (text : List Nat)
  /-- `HASH "s"`. -/
  | hash (text : List Nat)
  deriving DecidableEq, Repr

/-- Why the assembler refuses a line. -/
inductive AsmError where
  /-- R88: "An assembler refuses ABSORB n with n > 0x10FFFF". -/
  | codePointRange
  /-- A `.word` or WR value that is no 32-bit word. -/
  | wordRange
  /-- `WR CMD, v`. R88 writes with WR only "host transactions other than CMD writes", and calls `.word` "the only way to
  write an illegal command". DEDUCED, log entry 17. -/
  | cmdWrite
  /-- A mnemonic R88 and R89 do not list. -/
  | unknownMnemonic
  /-- An operand of none of the forms R88 gives. -/
  | badOperand
  deriving DecidableEq, Repr

/-- `ABSORB n` as a command, refused above 0x10FFFF (R88). -/
def assembleAbsorb (n : Nat) : Except AsmError HostEvent :=
  if n ≤ Const.maxCodePoint then .ok (commandEvent (encode (.absorb (BitVec.ofNat 21 n))))
  else .error .codePointRange

/-- `ABSORBS "s"` (R89): one ABSORB per code point, in order; the empty text expands to nothing. -/
def assembleText : List Nat → Except AsmError (List HostEvent)
  | [] => .ok []
  | n :: ns =>
    match assembleAbsorb n with
    | .error e => .error e
    | .ok ev =>
      match assembleText ns with
      | .error e => .error e
      | .ok evs => .ok (ev :: evs)

/-- A value that must be a 32-bit word. -/
def asWord (v : Nat) : Except AsmError Word :=
  if v < 2 ^ 32 then .ok (BitVec.ofNat 32 v) else .error .wordRange

/-- `WR <name>, v` (R88) of any register but CMD, whose writes are the command lines and `.word`: the model refuses
`WR CMD` (DEDUCED, log entry 17). -/
def assembleWrite (r : Reg) (v : Nat) : Except AsmError (List HostEvent) :=
  if r = .cmd then .error .cmdWrite
  else (asWord v).map (fun w => [.transaction (.write r.offset 4 w)])

/-- The host events of a line (R88, R89). -/
def assembleLine : AsmLine → Except AsmError (List HostEvent)
  | .nop => .ok [commandEvent (encode .nop)]
  | .init => .ok [commandEvent (encode .init)]
  | .absorb n => (assembleAbsorb n).map (fun ev => [ev])
  | .finalize => .ok [commandEvent (encode .finalize)]
  | .word v => (asWord v).map (fun w => [commandEvent w])
  | .rd r => .ok [.transaction (.read r.offset 4)]
  | .wr r v => assembleWrite r v
  | .absorbs text => assembleText text
  | .hash text =>
    (assembleText text).map
      (fun evs => commandEvent (encode .init) :: (evs ++ [commandEvent (encode .finalize)]))

/-- The host events of a stream of lines, in order (R88). -/
def assemble : List AsmLine → Except AsmError (List HostEvent)
  | [] => .ok []
  | l :: ls =>
    match assembleLine l with
    | .error e => .error e
    | .ok evs => (assemble ls).map (fun more => evs ++ more)

/-- Mnemonics are case-insensitive (R88). -/
def upperChar (c : Char) : Char := if 'a' ≤ c ∧ c ≤ 'z' then Char.ofNat (c.toNat - 32) else c

def isBlank (c : Char) : Bool := c == ' ' || c == '\t' || c == '\r'

/-- `;` starts a comment (R88), but not inside a quoted character or text. -/
def stripComment (inText : Bool) : List Char → List Char
  | [] => []
  | '\'' :: c :: '\'' :: rest =>
    if inText then '\'' :: stripComment inText (c :: '\'' :: rest)
    else '\'' :: c :: '\'' :: stripComment inText rest
  | c :: rest =>
    if c == '"' then c :: stripComment (!inText) rest
    else if c == ';' && !inText then []
    else c :: stripComment inText rest

def trimBlanks (cs : List Char) : List Char :=
  ((cs.dropWhile isBlank).reverse.dropWhile isBlank).reverse

/-- The value of a digit in a base up to 16. -/
def digitValue (base : Nat) (c : Char) : Option Nat :=
  let u := upperChar c
  let v := if '0' ≤ u ∧ u ≤ '9' then some (u.toNat - 48)
    else if 'A' ≤ u ∧ u ≤ 'F' then some (u.toNat - 55) else none
  match v with
  | some d => if d < base then some d else none
  | none => none

def digitsFrom (base acc : Nat) : List Char → Option Nat
  | [] => some acc
  | c :: cs =>
    match digitValue base c with
    | some d => digitsFrom base (acc * base + d) cs
    | none => none

def parseDigits (base : Nat) (cs : List Char) : Option Nat :=
  if cs = [] then none else digitsFrom base 0 cs

/-- A number: "decimal, or hex with `0x`" (R88). -/
def parseNumber : List Char → Option Nat
  | '0' :: 'x' :: cs => parseDigits 16 cs
  | cs => parseDigits 10 cs

/-- ABSORB's operand: a number, `'c'` or `U+XXXX` (R88). R88 shows four digits after `U+` and does not say how many may
stand there; the model takes any number of them from one up (DESIGN CHOICE, log entry 17). -/
def parseCodePoint : List Char → Option Nat
  | ['\'', c, '\''] => some c.toNat
  | 'U' :: '+' :: cs => parseDigits 16 cs
  | cs => parseNumber cs

/-- The code points of a text up to its closing quote, with nothing after it. -/
def textBody : List Char → Option (List Nat)
  | [] => none
  | ['"'] => some []
  | c :: cs => if c == '"' then none else (textBody cs).map (fun ns => c.toNat :: ns)

/-- A quoted text "s" as its code points (R89). -/
def parseText : List Char → Option (List Nat)
  | '"' :: cs => textBody cs
  | _ => none

/-- The names SEG0 to SEG3 of the map (R51). -/
def segName (i : Fin 4) : List Char × Reg := (['S', 'E', 'G', Char.ofNat (48 + i.val)], Reg.seg i)

/-- The names HEX0 to HEX7 of the map (R51). -/
def hexName (n : Fin 8) : List Char × Reg := (['H', 'E', 'X', Char.ofNat (48 + n.val)], Reg.hex n)

/-- The register names of the map (R51); the reserved word 0x0C has none. -/
def regNames : List (List Char × Reg) :=
  [(['C', 'M', 'D'], Reg.cmd), (['S', 'T', 'A', 'T', 'U', 'S'], Reg.status), (['A', 'C', 'C'], Reg.acc)]
    ++ (List.finRange 4).map segName ++ (List.finRange 8).map hexName

def parseReg (cs : List Char) : Option Reg :=
  (regNames.find? (fun p => p.1 == cs)).map (fun p => p.2)

/-- `<name>, v` of a WR line. The name CMD is read here and refused by `assembleWrite` (log entry 17). -/
def parseWrite (cs : List Char) : Option AsmLine :=
  match parseReg (trimBlanks (cs.takeWhile (fun c => c != ','))),
      parseNumber (trimBlanks ((cs.dropWhile (fun c => c != ',')).drop 1)) with
  | some r, some v => some (.wr r v)
  | _, _ => none

/-- An operand of the right form, or a refusal. -/
def needOperand (o : Option AsmLine) : Except AsmError AsmLine :=
  match o with
  | some l => .ok l
  | none => .error .badOperand

def noOperand (l : AsmLine) (operand : List Char) : Except AsmError AsmLine :=
  if operand = [] then .ok l else .error .badOperand

/-- A mnemonic in capitals and its operand text (R88, R89). -/
def parseStatement (m operand : List Char) : Except AsmError AsmLine :=
  if m = ['N', 'O', 'P'] then noOperand .nop operand
  else if m = ['I', 'N', 'I', 'T'] then noOperand .init operand
  else if m = ['F', 'I', 'N', 'A', 'L', 'I', 'Z', 'E'] then noOperand .finalize operand
  else if m = ['A', 'B', 'S', 'O', 'R', 'B'] then needOperand ((parseCodePoint operand).map .absorb)
  else if m = ['.', 'W', 'O', 'R', 'D'] then needOperand ((parseNumber operand).map .word)
  else if m = ['R', 'D'] then needOperand ((parseReg operand).map .rd)
  else if m = ['W', 'R'] then needOperand (parseWrite operand)
  else if m = ['A', 'B', 'S', 'O', 'R', 'B', 'S'] then needOperand ((parseText operand).map .absorbs)
  else if m = ['H', 'A', 'S', 'H'] then needOperand ((parseText operand).map .hash)
  else .error .unknownMnemonic

/-- One line of text: none for a line with nothing but blanks or a comment (R88: one command per line). -/
def parseLine (cs : List Char) : Except AsmError (Option AsmLine) :=
  let body := trimBlanks (stripComment false cs)
  if body = [] then .ok none
  else
    (parseStatement ((body.takeWhile (fun c => !isBlank c)).map upperChar)
      (trimBlanks (body.dropWhile (fun c => !isBlank c)))).map some

/-- A program given as its lines of text. -/
def parseProgram : List (List Char) → Except AsmError (List AsmLine)
  | [] => .ok []
  | l :: ls =>
    match parseLine l with
    | .error e => .error e
    | .ok none => parseProgram ls
    | .ok (some a) => (parseProgram ls).map (fun as => a :: as)

end Sys2Proof.Machine
end

