-- ==== Sys2Proof/Machine/Datapath.lean ====
section
/-! DEFINITION. The hardware forms the spec offers as "a correct implementation … not a different rule": the end-around-carry
fold for `mod M` (R126) and the rotator form of the Step 2 sub-steps (R145). The meanings do not use them. -/

namespace Sys2Proof.Machine

/-- One end-around-carry fold: `(x AND 0xFFFFFFFF) + (x >> 32)` (R126). -/
def carryFold (x : Nat) : Nat := (x &&& 0xFFFFFFFF) + (x >>> 32)

/-- R126's `while y > 0xFFFFFFFF`, at most `fuel` times. -/
def carryLoop : Nat → Nat → Nat
  | 0, y => y
  | fuel + 1, y => if y > 0xFFFFFFFF then carryLoop fuel (carryFold y) else y

/-- R126: `(y == 0xFFFFFFFF) ? 0 : y`. -/
def allOnesToZero (y : Nat) : Nat := if y = 0xFFFFFFFF then 0 else y

/-- R126's algorithm. After the first fold of an `x < 2^64` one correction is enough; the loop may run twice here. -/
def foldMod (x : Nat) : Nat := allOnesToZero (carryLoop 2 (carryFold x))

/-- R145: rotl32, "forced to 0" by the all-ones detector. -/
def rotateOrZero (k : Nat) (x : Word) : Word := if x = 0xFFFFFFFF#32 then 0#32 else x.rotateLeft k

/-- One round of Step 2 on a 32-bit datapath (R145): two rotators with their detector and one logical right shift. -/
def hwRound (x : Word) : Word :=
  let x1 := x ^^^ rotateOrZero Const.shiftL13 x
  let x2 := x1 ^^^ (x1 >>> Const.shiftR7)
  x2 ^^^ rotateOrZero Const.shiftL17 x2

/-- Step 2 on a 32-bit datapath. -/
def hwAvalanche (x : Word) : Word := hwRound (hwRound (hwRound x))

end Sys2Proof.Machine
end

