-- ==== Sys2Proof/Machine/System.lean ====
section
/-! DEFINITION. Beyond one host and one instance: several agents on one instance (R63) and several instances (R63, R213).
Log entry 11. -/

namespace Sys2Proof.Machine

/-- `Interleaves streams order`: `order` is one total order in which the agents' event streams may reach the block, each
agent's own events in their order (R58, R63: "a relation over every order"). -/
inductive Interleaves : List (List HostEvent) → List HostEvent → Prop where
  | done (streams : List (List HostEvent)) (empty : ∀ st ∈ streams, st = []) : Interleaves streams []
  | pick (streams : List (List HostEvent)) (k : Fin streams.length) (ev : HostEvent) (rest order : List HostEvent)
      (head : streams.get k = ev :: rest) (tail : Interleaves (streams.set k rest) order) :
      Interleaves streams (ev :: order)

/-- The instance `s` with the agents' streams arriving in some order, which stays open (U9). -/
def AgentsIssue (streams : List (List HostEvent)) (s t : State) : Prop :=
  ∃ order, Interleaves streams order ∧ t = { s with pending := s.pending ++ order }

/-- Instance `k` of a system takes a step: "several instances are fully independent" (R63). -/
def stepInstance (sys : List State) (k : Fin sys.length) : Host.Outcome (List State) Fault Refusal :=
  match step (sys.get k) with
  | .next t => .next (sys.set k t)
  | .fault r => .fault r
  | .refused r => .refused r

end Sys2Proof.Machine
end

