-- ==== Sys2Proof/Machine/Digest.lean ====
section
/-! DEFINITION. The source's one-call function, Steps 0 to 4 over a whole sequence of code points (R2, R5): what a digest
result is the digest OF (R238). The engine streams it, one command at a time. -/

namespace Sys2Proof.Machine

/-- Step 0: an empty sequence is replaced by the placeholder (R142). -/
def stepZero (cps : List Nat) : List Nat := if cps = [] then Const.rom else cps

/-- The Step 1 result of a message (R121, R142). -/
def streamAcc (cps : List Nat) : Nat := mixFrom 0 0 (stepZero cps)

/-- The Step 2 result of a message (R143). -/
def digestAcc (cps : List Nat) : Nat := avalanche (streamAcc cps)

/-- Segment i of a message (R147, R148). -/
def digestSegment (cps : List Nat) (i : Nat) : Word := BitVec.ofNat 32 (segmentExpand (digestAcc cps) i)

/-- The digest string of a message (R171, R172, R174). -/
def digestOf (cps : List Nat) : List Byte := joinSegments (fun i => digestSegment cps i.val)

/-- The engine in the ABSORB phase after absorbing exactly `cps` since the last INIT or reset (R124, R238). -/
def Engine.absorbed (cps : List Nat) : Engine :=
  { Engine.reset with
    acc := BitVec.ofNat 32 (mixFrom 0 0 cps)
    pos := BitVec.ofNat 3 (cps.length % Const.cycle)
    seen := !cps.isEmpty }

/-- The engine after the FINALIZE that ends the message `cps` (R140, R238). -/
def Engine.finalized (cps : List Nat) : Engine :=
  { Engine.absorbed cps with acc := BitVec.ofNat 32 (digestAcc cps), done := true }.writeSegs
    (fun i => digestSegment cps i.val)

end Sys2Proof.Machine
end

