-- ==== Sys2Proof/Safety.lean ====
section
/-! DEFINITION. What a claim may call safe: the invariants of R34, the poisoned state, the transactions the spec defines,
and when a read is a digest result (R238). -/

namespace Sys2Proof.Machine

/-- The invariants R34 lists for every reachable state, its letters as field names, and R201's bound on ERRCODE. -/
structure Engine.Inv (e : Engine) : Prop where
  /-- (a) -/
  emptyStart : e.done = false → e.seen = false → e.acc = 0#32 ∧ e.pos = 0#3
  /-- (b) -/
  noEarlySegments : e.done = false → e.seg0 = 0#32 ∧ e.seg1 = 0#32 ∧ e.seg2 = 0#32 ∧ e.seg3 = 0#32
  /-- (c) -/
  errIffCode : e.err = false ↔ e.errCode = 0#4
  /-- (d) -/
  accReduced : e.done = false → e.accNat ≤ Const.M - 1
  /-- (e) -/
  placeholderDone : e.done = true → e.seen = false → e.acc = 0x3711A961#32
  /-- R201: "6 to 15 | reserved | never recorded". -/
  codeLegal : e.errCode.toNat ≤ 5

/-- Every register value software can see stays in the range the spec claims for it: ACC (R23, R146) and the segments
(R29) never hold 0xFFFFFFFF. -/
structure Engine.InRange (e : Engine) : Prop where
  acc : e.accNat ≤ Const.M - 1
  seg : ∀ i : Fin 4, (e.seg i).toNat ≤ Const.M - 1

/-- R17: "the state with ERR = 1, in which ABSORB and FINALIZE are ignored". -/
def Engine.poisoned (e : Engine) : Bool := e.err

/-- R238: the digest, when STATUS shows DONE = 1 and ERR = 0; every other state holds none. -/
def digestResult (e : Engine) : Option (List Byte) :=
  if e.done && !e.err then some e.digest else none

/-- The host events the spec defines: the transactions of R52 and the reset event between transactions (R64, R231). -/
def HostEvent.defined : HostEvent → Bool
  | .transaction (.read off size) => (resolve off size).isSome
  | .transaction (.write off size _) => (resolve off size).isSome
  | .reset => true
  | .resetDuring _ => false

/-- The two events that leave the error state and start a new message (R207): reset and a CMD write of the INIT word. -/
def HostEvent.restarts (ev : HostEvent) : Prop := ev = .reset ∨ ev = commandEvent 0x01000000#32

end Sys2Proof.Machine
end

