-- ==== Sys2Proof/Certificates/Slice0/Obligations.lean ====
section
/-! DEFINITION. The statements about the MS32-DE, from the numbered rules of spec/. A state is written ⟨engine, pending
events, responses⟩. -/

open Sys2Proof Sys2Proof.Machine

/-! ## Encoding -/

/-- R80, R82: decoding the word of any command, with any of the 2^21 CP operands, gives the command back. -/
def Obligations.DecodeOfEncodeIsTheCommand : Prop :=
  ∀ i : Instr, decode (encode i) = .ok i

/-- R82, R86: every word has one meaning, so the word of the command it decodes to is that word. -/
def Obligations.EncodeOfDecodeIsTheWord : Prop :=
  ∀ (w : Word) (i : Instr), decode w = .ok i → encode i = w

/-- R82's match and mask pairs, over every 32-bit word, and the CP operand of R81. -/
def Obligations.DecodeAgreesWithMatchAndMask : Prop :=
  ∀ w : Word,
    (decode w = .ok .nop ↔ w &&& 0xFFFFFFFF#32 = 0x00000000#32) ∧
    (decode w = .ok .init ↔ w &&& 0xFFFFFFFF#32 = 0x01000000#32) ∧
    (decode w = .ok .finalize ↔ w &&& 0xFFFFFFFF#32 = 0x03000000#32) ∧
    (∀ cp : BitVec 21, decode w = .ok (.absorb cp) ↔
      w &&& 0xFFE00000#32 = 0x02000000#32 ∧ cp.toNat = w.toNat % 2 ^ 21)

/-- Sanity: words written out from R80 and R88. -/
def Obligations.WrittenOutWordsDecode : Prop :=
  decode 0x00000000#32 = .ok .nop ∧
  decode 0x01000000#32 = .ok .init ∧
  decode 0b00000010000000000000000001100001#32 = .ok (.absorb 0x61#21) ∧
  decode 0b00000010000100001111111111111111#32 = .ok (.absorb 0x10FFFF#21) ∧
  decode 0x03000000#32 = .ok .finalize ∧
  decode 0x04000000#32 = .error .reservedOpcode ∧
  decode 0x03800000#32 = .error .reservedBits ∧
  decode 0x02200041#32 = .error .reservedBits

/-- Writing a legal word to CMD runs the command it decodes to, and `withFetchWord` places such a word (log entry 1). -/
def Obligations.CommandWriteRunsDecodedCommand : Prop :=
  ∀ (e : Engine) (w : Word) (rest : List HostEvent) (rs : List Response) (i : Instr), decode w = .ok i →
    step ⟨e, commandEvent w :: rest, rs⟩ = exec i ⟨e, rest, rs⟩ ∧
    step (State.withFetchWord ⟨e, rest, rs⟩ 32 w.toNat) = exec i ⟨e, rest, rs⟩

/-- R85, the complete effect of `MemWrite(0x00, 4, w)`: its checks in their order, on the fields of the word as numbers. -/
def Obligations.CommandWriteFollowsProcedure : Prop :=
  ∀ (e : Engine) (w : Word) (rest : List HostEvent) (rs : List Response),
    let op := w.toNat / 2 ^ 24
    let rsv := w.toNat / 2 ^ 21 % 8
    let low := w.toNat % 2 ^ 24
    let cp := w.toNat % 2 ^ 21
    let raised : BitVec 4 → Engine := fun code => if e.err then e else { e with err := true, errCode := code }
    let after : Engine :=
      if op > 3 then raised 1#4
      else if op = 2 ∧ rsv ≠ 0 then raised 2#4
      else if op ≠ 2 ∧ low ≠ 0 then raised 2#4
      else if op = 0 then e
      else if op = 1 then Engine.reset
      else if op = 2 then
        if e.err then e
        else if e.done then raised 3#4
        else if cp > 0x10FFFF then raised 5#4
        else e.absorb cp
      else
        if e.err then e
        else if e.done then raised 4#4
        else e.finalize
    step ⟨e, commandEvent w :: rest, rs⟩ = .next ⟨after, rest, rs⟩

/-! ## NOP and INIT -/

/-- R100: NOP's word is 0x00000000, it changes nothing in any phase and whatever ERR is; with other bits set it records
E_RESERVED. -/
def Obligations.NopChangesNothing : Prop :=
  (∀ s : State, exec .nop s = .next s) ∧
  (∀ (e : Engine) (rest : List HostEvent) (rs : List Response),
    step ⟨e, commandEvent 0x00000000#32 :: rest, rs⟩ = .next ⟨e, rest, rs⟩) ∧
  (∀ (e : Engine) (w : Word) (rest : List HostEvent) (rs : List Response),
    w.toNat / 2 ^ 24 = 0 → w.toNat % 2 ^ 24 ≠ 0 →
    step ⟨e, commandEvent w :: rest, rs⟩ =
      .next ⟨if e.err then e else { e with err := true, errCode := 2#4 }, rest, rs⟩) ∧
  Engine.reset.status = 0x00000000#32 ∧ Engine.reset.acc = 0x00000000#32

/-- R101: INIT writes 0 to every element in any phase, even while poisoned, which is the reset state of R36; with other
bits set its word records E_RESERVED and changes nothing else. -/
def Obligations.InitClearsEveryElement : Prop :=
  (∀ s : State, exec .init s = .next
    { s with engine := { acc := 0#32, pos := 0#3, seen := false, done := false, err := false, errCode := 0#4,
                         seg0 := 0#32, seg1 := 0#32, seg2 := 0#32, seg3 := 0#32 } }) ∧
  (∀ (e : Engine) (rest : List HostEvent) (rs : List Response),
    step ⟨e, commandEvent 0x01000000#32 :: rest, rs⟩ = .next ⟨Engine.reset, rest, rs⟩) ∧
  (∀ (e : Engine) (w : Word) (rest : List HostEvent) (rs : List Response),
    w.toNat / 2 ^ 24 = 1 → w.toNat % 2 ^ 24 ≠ 0 →
    step ⟨e, commandEvent w :: rest, rs⟩ =
      .next ⟨if e.err then e else { e with err := true, errCode := 2#4 }, rest, rs⟩)

/-! ## ABSORB -/

/-- R120: in the ABSORB phase without an error, ABSORB of a code point writes MIX to ACC, advances POS and sets SEEN, and
changes nothing else. -/
def Obligations.AbsorbResult : Prop :=
  ∀ (cp : BitVec 21) (s : State), s.engine.err = false → s.engine.done = false → cp.toNat ≤ 0x10FFFF →
    let u := (s.engine.acc.toNat * 31 + (cp.toNat <<< s.engine.pos.toNat)) % 0xFFFFFFFF
    exec (.absorb cp) s = .next
      { s with engine := { s.engine with
          acc := BitVec.ofNat 32 ((u ^^^ (u >>> 16)) % 0xFFFFFFFF)
          pos := BitVec.ofNat 3 ((s.engine.pos.toNat + 1) % 8)
          seen := true } }

/-- The frame of ABSORB (R33, R120, R203, R204), for every operand and state: only ACC and STATUS can read differently;
within STATUS, DONE never changes; ERR and ERRCODE change only where ABSORB records an error, and then ACC, POS and SEEN
keep their values, as they do while poisoned. -/
def Obligations.AbsorbFrame : Prop :=
  ∀ (cp : BitVec 21) (s t : State), exec (.absorb cp) s = .next t →
    (∀ r : Reg, r ≠ .status → r ≠ .acc → readReg r t.engine = readReg r s.engine) ∧
    t.engine.done = s.engine.done ∧
    (s.engine.err = false ∧ s.engine.done = false ∧ cp.toNat ≤ 0x10FFFF →
      t.engine.err = s.engine.err ∧ t.engine.errCode = s.engine.errCode) ∧
    (s.engine.err = true ∨ s.engine.done = true ∨ 0x10FFFF < cp.toNat →
      t.engine.acc = s.engine.acc ∧ t.engine.pos = s.engine.pos ∧ t.engine.seen = s.engine.seen) ∧
    (s.engine.err = true → t.engine = s.engine) ∧
    t.pending = s.pending ∧ t.responses = s.responses

/-- R121, R122, R123: within its domain the Step 1 datapath is exact. The shifter's output is v·2^pos and at most
0x087FFF80, the sum is at most 0x1F087FFF42 and so below 2^37, the XOR stays below 2^32, and the result is reduced. -/
def Obligations.MixIsExactAndReduced : Prop :=
  ∀ acc pos v : Nat, acc ≤ 0xFFFFFFFE → pos ≤ 7 → v ≤ 0x10FFFF →
    let shifted := v <<< pos
    let t := acc * 31 + shifted
    let u := t % (2 ^ 32 - 1)
    let w := u ^^^ (u >>> 16)
    shifted = v * 2 ^ pos ∧ shifted ≤ 0x087FFF80 ∧ t ≤ 0x1F087FFF42 ∧ t < 2 ^ 37 ∧ u >>> 16 < 2 ^ 16 ∧ w < 2 ^ 32 ∧
    mix acc pos v = w % (2 ^ 32 - 1) ∧ mix acc pos v ≤ 0xFFFFFFFE

/-- R23, R120: a performed ABSORB writes the Step 1 value to the 32-bit ACC without losing a bit, and ACC is then at most
M − 1. -/
def Obligations.AbsorbLosesNoBit : Prop :=
  ∀ (cp : BitVec 21) (s : State), s.engine.err = false → s.engine.done = false → cp.toNat ≤ 0x10FFFF →
    ∃ t, exec (.absorb cp) s = .next t ∧
      t.engine.acc.toNat = mix s.engine.acc.toNat s.engine.pos.toNat cp.toNat ∧ t.engine.acc.toNat ≤ 0xFFFFFFFE

/-- R127: for a reduced u the post-XOR reduction acts exactly at u = 0xFFFF0000, and the result is then 0; the single-step
vector and the message of 95_test_vectors.md reach it. -/
def Obligations.PostXorReductionActsOnlyAtOneValue : Prop :=
  (∀ u : Nat, u < 2 ^ 32 - 1 →
    ((u ^^^ (u >>> 16)) % (2 ^ 32 - 1) ≠ u ^^^ (u >>> 16) ↔ u = 0xFFFF0000) ∧
    (u ^^^ (u >>> 16) = 0xFFFFFFFF ↔ u = 0xFFFF0000) ∧
    (u ^^^ (u >>> 16)) >>> 16 = u >>> 16) ∧
  (0xFFFF0000 ^^^ (0xFFFF0000 >>> 16)) % (2 ^ 32 - 1) = 0 ∧
  (0xAD6B5294 * 31 + (0 <<< 0)) % (2 ^ 32 - 1) = 0xFFFF0000 ∧ mix 0xAD6B5294 0 0 = 0 ∧
  mixFrom 0 0 [0x72, 0x64, 0x78, 0x6E, 0x6D, 0x74, 0x66] = 0xFFFE965E ∧
  (0xFFFE965E * 31 + (0x5595 <<< 7)) % (2 ^ 32 - 1) = 0xFFFF0000 ∧
  mixFrom 0 0 [0x72, 0x64, 0x78, 0x6E, 0x6D, 0x74, 0x66, 0x5595] = 0

/-- R126: the end-around-carry fold computes `x mod M` for every x below 2^64, however often its loop may run from once up;
for Step 1's t < 2^37 one carry correction is enough. -/
def Obligations.EndAroundCarryComputesModM : Prop :=
  (∀ x : Nat, x < 2 ^ 64 → foldMod x = x % (2 ^ 32 - 1)) ∧
  (∀ x fuel : Nat, x < 2 ^ 64 → 1 ≤ fuel → allOnesToZero (carryLoop fuel (carryFold x)) = x % (2 ^ 32 - 1)) ∧
  (∀ x : Nat, x < 2 ^ 37 → allOnesToZero (carryLoop 1 (carryFold x)) = x % (2 ^ 32 - 1))

/-! ## FINALIZE -/

/-- R140, R142: in the ABSORB phase without an error, FINALIZE runs the avalanche on ACC, or on the placeholder's Step 1
value if nothing was absorbed, writes ACC and the four segments, sets DONE, and changes nothing else. -/
def Obligations.FinalizeResult : Prop :=
  ∀ s : State, s.engine.err = false → s.engine.done = false →
    let a := avalanche (if s.engine.seen = false then placeholderAcc else s.engine.acc.toNat)
    exec .finalize s = .next
      { s with engine := { s.engine with
          acc := BitVec.ofNat 32 a
          seg0 := BitVec.ofNat 32 (segmentExpand a 0)
          seg1 := BitVec.ofNat 32 (segmentExpand a 1)
          seg2 := BitVec.ofNat 32 (segmentExpand a 2)
          seg3 := BitVec.ofNat 32 (segmentExpand a 3)
          done := true } }

/-- The frame of FINALIZE (R33, R140, R203, R204), for every state: SEEN and POS never change; ERR and ERRCODE change only
where FINALIZE is performed in the DONE phase; unless it is performed in the ABSORB phase without an error, everything but
the error record keeps its value and every register but STATUS reads as before. -/
def Obligations.FinalizeFrame : Prop :=
  ∀ s t : State, exec .finalize s = .next t →
    t.engine.seen = s.engine.seen ∧ t.engine.pos = s.engine.pos ∧
    (s.engine.done = false → t.engine.err = s.engine.err ∧ t.engine.errCode = s.engine.errCode) ∧
    (s.engine.err = true → t.engine = s.engine) ∧
    (s.engine.err = true ∨ s.engine.done = true →
      t.engine.done = s.engine.done ∧ ∀ r : Reg, r ≠ .status → readReg r t.engine = readReg r s.engine) ∧
    readReg .cmd t.engine = readReg .cmd s.engine ∧ readReg .reserved t.engine = readReg .reserved s.engine ∧
    t.pending = s.pending ∧ t.responses = s.responses

/-- R140, R148 (and R146, R149): what FINALIZE writes fits its 32-bit registers. No bit of the Step 2 result or of a segment
is lost, and segment i is SEGMENT of the ACC it leaves. -/
def Obligations.FinalizeLosesNoBit : Prop :=
  ∀ s : State, s.engine.err = false → s.engine.done = false →
    ∃ t, exec .finalize s = .next t ∧
      t.engine.acc.toNat = avalanche (if s.engine.seen = false then placeholderAcc else s.engine.acc.toNat) ∧
      ∀ i : Fin 4, (t.engine.seg i).toNat = segmentExpand t.engine.acc.toNat i.val

/-- R142: PLACEHOLDER_ACC is 0xFC44DD11, the Step 1 value of the 12 code points of `empty_string`, and its Step 2 result is
0x3711A961. -/
def Obligations.PlaceholderValues : Prop :=
  placeholderAcc = mixFrom 0 0 [0x65, 0x6D, 0x70, 0x74, 0x79, 0x5F, 0x73, 0x74, 0x72, 0x69, 0x6E, 0x67] ∧
  placeholderAcc = 0xFC44DD11 ∧ avalanche placeholderAcc = 0x3711A961

/-- R143: AVALANCHE is three times the sub-steps L13, R7, L17, each reducing only its shifted operand; its result is not
reduced, and below 2^32. -/
def Obligations.AvalancheIsNineSubSteps : Prop :=
  ∀ a : Nat,
    let oneRound : Nat → Nat := fun x =>
      let x1 := x ^^^ ((x <<< 13) % (2 ^ 32 - 1))
      let x2 := x1 ^^^ ((x1 >>> 7) % (2 ^ 32 - 1))
      x2 ^^^ ((x2 <<< 17) % (2 ^ 32 - 1))
    avalanche a = oneRound (oneRound (oneRound a)) ∧ (a ≤ 0xFFFFFFFE → avalanche a < 2 ^ 32)

/-- R145, for every 32-bit x: a left shift reduced mod M is a rotation, or 0 for the all-ones value; the right shift needs
no reduction; and "a 32-bit datapath holds Step 2 exactly": the rotator form computes AVALANCHE. -/
def Obligations.RotatorDatapathComputesAvalanche : Prop :=
  ∀ x : Word,
    (∀ k : Nat, k < 32 →
      (x ≠ 0xFFFFFFFF#32 → (x.toNat <<< k) % (2 ^ 32 - 1) = (x.rotateLeft k).toNat) ∧
      (x = 0xFFFFFFFF#32 → (x.toNat <<< k) % (2 ^ 32 - 1) = 0)) ∧
    (x.toNat >>> 7) % (2 ^ 32 - 1) = (x >>> 7).toNat ∧
    (hwAvalanche x).toNat = avalanche x.toNat

/-- R146, the final value: no Step 1 result in [0, M − 1] gives 0xFFFFFFFF after sub-step 9, so ACC after FINALIZE is in
[0, M − 1] although Step 2 does not reduce it. -/
def Obligations.AvalancheNeverAllOnes : Prop :=
  ∀ a : Nat, a ≤ 0xFFFFFFFE → avalanche a ≤ 0xFFFFFFFE

/-- R146, intermediate all-ones: 0x55555555 and 0xAAAAAAAA give 0xFFFFFFFF after sub-step 1, which is carried on unreduced
(R144); the message "ksydphx" U+3CFD gives the first of them. -/
def Obligations.AllOnesIsReachedInsideStepTwo : Prop :=
  subL13 0x55555555 = 0xFFFFFFFF ∧ subL13 0xAAAAAAAA = 0xFFFFFFFF ∧
  mixFrom 0 0 [0x6B, 0x73, 0x79, 0x64, 0x70, 0x68, 0x78, 0x3CFD] = 0x55555555 ∧
  subR7 0xFFFFFFFF = 0xFE000000 ∧ avalanche 0x55555555 = 0xD9D260E9 ∧ avalanche 0xAAAAAAAA = 0xD9D260E9

/-- R146, complement collision: a value and its complement have the same avalanche whenever neither is 0xFFFFFFFF. -/
def Obligations.ComplementsCollide : Prop :=
  ∀ a : Nat, 0 < a → a < 0xFFFFFFFF → avalanche (0xFFFFFFFF ^^^ a) = avalanche a

/-- R147: SEGMENT's four lines, and its result is in [0, M − 1]. -/
def Obligations.SegmentFourLines : Prop :=
  ∀ a i : Nat,
    let s1 := (a + i * 0x9E3779B9) % (2 ^ 32 - 1)
    let s2 := ((s1 ^^^ (s1 >>> 16)) * 0x85EBCA6B) % (2 ^ 32 - 1)
    let s3 := ((s2 ^^^ (s2 >>> 13)) * 0x02B2AE35) % (2 ^ 32 - 1)
    segmentExpand a i = (s3 ^^^ (s3 >>> 16)) % (2 ^ 32 - 1) ∧ segmentExpand a i ≤ 0xFFFFFFFE

/-- R149: the all-ones input has the same segments as 0, and segment 0 of 0 is 0; intermediate widths below 2^35, 2^32 and
2^64. -/
def Obligations.SegmentValueFacts : Prop :=
  (∀ i : Nat, segmentExpand 0xFFFFFFFF i = segmentExpand 0 i) ∧ segmentExpand 0 0 = 0 ∧
  (∀ a i : Nat, a ≤ 0xFFFFFFFF → i ≤ 3 → a + i * 0x9E3779B9 < 2 ^ 35) ∧
  (∀ s k : Nat, s < 2 ^ 32 - 1 → s ^^^ (s >>> k) < 2 ^ 32 ∧ (s ^^^ (s >>> k)) * 0x85EBCA6B < 2 ^ 64 ∧
    (s ^^^ (s >>> k)) * 0x02B2AE35 < 2 ^ 64)

/-- R149: each multiplication by K_MIX1 or K_MIX2 mod M is a bijection on [0, M − 1]: injective, and onto. -/
def Obligations.MultipliersAreBijective : Prop :=
  ∀ k : Nat, k = Const.kMix1 ∨ k = Const.kMix2 →
    (∀ a b : Nat, a < 2 ^ 32 - 1 → b < 2 ^ 32 - 1 → a * k % (2 ^ 32 - 1) = b * k % (2 ^ 32 - 1) → a = b) ∧
    (∀ c : Nat, c < 2 ^ 32 - 1 → ∃ a, a < 2 ^ 32 - 1 ∧ a * k % (2 ^ 32 - 1) = c)

/-! ## Errors -/

/-- R83: a word with OP in 0x04 to 0xFF raises E_OPCODE, whatever its other bits are. -/
def Obligations.ReservedOpcodeRaises : Prop :=
  ∀ (e : Engine) (w : Word) (rest : List HostEvent) (rs : List Response), 0x04 ≤ w.toNat / 2 ^ 24 →
    step ⟨e, commandEvent w :: rest, rs⟩ =
      .next ⟨if e.err then e else { e with err := true, errCode := 1#4 }, rest, rs⟩

/-- R84: a defined OP whose reserved bits are not all 0 raises E_RESERVED: RSV for ABSORB, `w[23:0]` for the others; a write
of zero is harmless. -/
def Obligations.ReservedBitsRaise : Prop :=
  (∀ (e : Engine) (w : Word) (rest : List HostEvent) (rs : List Response),
    (w.toNat / 2 ^ 24 = 2 ∧ w.toNat / 2 ^ 21 % 8 ≠ 0) ∨
      ((w.toNat / 2 ^ 24 = 0 ∨ w.toNat / 2 ^ 24 = 1 ∨ w.toNat / 2 ^ 24 = 3) ∧ w.toNat % 2 ^ 24 ≠ 0) →
    step ⟨e, commandEvent w :: rest, rs⟩ =
      .next ⟨if e.err then e else { e with err := true, errCode := 2#4 }, rest, rs⟩) ∧
  (∀ (e : Engine) (rest : List HostEvent) (rs : List Response),
    step ⟨e, commandEvent 0x00000000#32 :: rest, rs⟩ = .next ⟨e, rest, rs⟩)

/-- R201 codes 3, 4 and 5 and R205: in the DONE phase ABSORB records E_ABSORB_DONE for every operand, in range or not, and
FINALIZE records E_FINAL_DONE; in the ABSORB phase an ABSORB above 0x10FFFF records E_CP_RANGE. -/
def Obligations.PhaseAndRangeErrors : Prop :=
  ∀ s : State, s.engine.err = false →
    (∀ cp : BitVec 21, s.engine.done = true →
      exec (.absorb cp) s = .next { s with engine := { s.engine with err := true, errCode := 3#4 } }) ∧
    (s.engine.done = true →
      exec .finalize s = .next { s with engine := { s.engine with err := true, errCode := 4#4 } }) ∧
    (∀ cp : BitVec 21, s.engine.done = false → 0x10FFFF < cp.toNat →
      exec (.absorb cp) s = .next { s with engine := { s.engine with err := true, errCode := 5#4 } })

/-- R202: `raise CmdError` writes ERR and ERRCODE if ERR was 0, keeps the first error otherwise, and writes nothing else. -/
def Obligations.RaiseKeepsFirstError : Prop :=
  ∀ (c : CmdError) (s : State),
    (s.engine.err = false →
      raiseCmdError c s = { s with engine := { s.engine with err := true, errCode := c.code } }) ∧
    (s.engine.err = true → raiseCmdError c s = s)

/-- R203: a command that raises an error has no other effect, whether it records it or not; the code recorded is 1 to 5. -/
def Obligations.ErroringCommandHasNoOtherEffect : Prop :=
  ∀ (e : Engine) (w : Word) (rest : List HostEvent) (rs : List Response) (t : State),
    step ⟨e, commandEvent w :: rest, rs⟩ = .next t →
    (e.err = false → t.engine.err = true →
      t.engine = { e with err := true, errCode := t.engine.errCode } ∧
      1 ≤ t.engine.errCode.toNat ∧ t.engine.errCode.toNat ≤ 5) ∧
    (∀ d, decode w = .error d →
      t.engine.acc = e.acc ∧ t.engine.pos = e.pos ∧ t.engine.seen = e.seen ∧ t.engine.done = e.done ∧
      ∀ i, t.engine.seg i = e.seg i)

/-- R204: while ERR = 1, ABSORB and FINALIZE change nothing, NOP and INIT are performed as usual, and an illegal word
leaves ERRCODE as it is. -/
def Obligations.PoisonedCommands : Prop :=
  ∀ s : State, s.engine.err = true →
    (∀ cp : BitVec 21, exec (.absorb cp) s = .next s) ∧
    exec .finalize s = .next s ∧
    exec .nop s = .next s ∧
    exec .init s = .next { s with engine := Engine.reset } ∧
    (∀ (w : Word) (d : DecodeError), decode w = .error d → performCommand w s = .next s)

/-- R207: INIT and reset clear ERR and ERRCODE and discard the message, and only they do. Any other step from the error
state leaves the whole engine, and so the first ERRCODE, as it is. -/
def Obligations.OnlyRestartLeavesTheErrorState : Prop :=
  ∀ s t : State, step s = .next t →
    (s.engine.err = true →
      t.engine = s.engine ∨ (t.engine = Engine.reset ∧ ∃ ev rest, s.pending = ev :: rest ∧ ev.restarts)) ∧
    (∀ ev rest, s.pending = ev :: rest → ev.restarts →
      t.engine.err = false ∧ t.engine.errCode = 0#4 ∧ t.engine = Engine.reset)

/-- R26, R38, R203: once DONE, the digest stays latched: until INIT or reset no step changes ACC, POS, SEEN, DONE or a
segment. -/
def Obligations.DigestStaysLatchedUntilRestart : Prop :=
  ∀ s t : State, step s = .next t → s.engine.done = true →
    (t.engine.acc = s.engine.acc ∧ t.engine.pos = s.engine.pos ∧ t.engine.seen = s.engine.seen ∧
      t.engine.done = true ∧ (∀ i, t.engine.seg i = s.engine.seg i) ∧ t.engine.digest = s.engine.digest) ∨
    (t.engine = Engine.reset ∧ ∃ ev rest, s.pending = ev :: rest ∧ ev.restarts)

/-! ## The register window -/

/-- R51, R53, R55: each read of the window returns the value of the register map and changes nothing in the block; CMD and
the reserved word read 0. -/
def Obligations.ReadsFollowRegisterMap : Prop :=
  ∀ (e : Engine) (rest : List HostEvent) (rs : List Response),
    let reads : Int → Word → Prop := fun off v =>
      step ⟨e, .transaction (.read off 4) :: rest, rs⟩ = .next ⟨e, rest, ⟨off, v⟩ :: rs⟩
    reads 0x00 0x00000000#32 ∧ reads 0x04 e.status ∧ reads 0x08 e.acc ∧ reads 0x0C 0x00000000#32 ∧
    reads 0x10 e.seg0 ∧ reads 0x14 e.seg1 ∧ reads 0x18 e.seg2 ∧ reads 0x1C e.seg3 ∧
    ∀ n : Fin 8, reads (0x20 + 4 * n.val) (e.hexWord n)

/-- R53: a sequence of reads, of any length and of any registers, leaves the block as it was and returns for each the value
of the one state they all see; so two reads with no write between return the same value. -/
def Obligations.ReadSequenceSeesOneState : Prop :=
  ∀ (regs : List Reg) (e : Engine) (rest : List HostEvent) (rs : List Response),
    stepN regs.length ⟨e, regs.map (fun r => .transaction (.read r.offset 4)) ++ rest, rs⟩ =
      .next ⟨e, rest, (regs.map (fun r => (⟨r.offset, readReg r e⟩ : Response))).reverse ++ rs⟩

/-- R54: a write to any offset from 0x04 to 0x3C, the reserved one included, has no effect. -/
def Obligations.WritesToReadOnlyIgnored : Prop :=
  ∀ (e : Engine) (v : Word) (rest : List HostEvent) (rs : List Response) (off : Int),
    off % 4 = 0 → 0x04 ≤ off → off ≤ 0x3C →
    step ⟨e, .transaction (.write off 4 v) :: rest, rs⟩ = .next ⟨e, rest, rs⟩

/-- R52: every access that is not an aligned 32-bit access inside the window is refused, and only those. -/
def Obligations.OtherAccessesRefused : Prop :=
  ∀ (e : Engine) (v : Word) (rest : List HostEvent) (rs : List Response) (off : Int) (size : Nat),
    (¬ (size = 4 ∧ off % 4 = 0 ∧ 0x00 ≤ off ∧ off ≤ 0x3C) →
      step ⟨e, .transaction (.read off size) :: rest, rs⟩ = .refused .undefinedAccess ∧
      step ⟨e, .transaction (.write off size v) :: rest, rs⟩ = .refused .undefinedAccess) ∧
    (size = 4 ∧ off % 4 = 0 ∧ 0x00 ≤ off ∧ off ≤ 0x3C →
      (∃ t, step ⟨e, .transaction (.read off size) :: rest, rs⟩ = .next t) ∧
      (∃ t, step ⟨e, .transaction (.write off size v) :: rest, rs⟩ = .next t))

/-- R32: the fields of STATUS and its reserved bits, which read 0. -/
def Obligations.StatusFields : Prop :=
  ∀ e : Engine,
    e.status.getLsbD 0 = e.done ∧ e.status.getLsbD 1 = e.seen ∧ e.status.extractLsb' 2 3 = e.pos ∧
    e.status.extractLsb' 5 3 = 0#3 ∧ e.status.getLsbD 8 = e.err ∧ e.status.extractLsb' 9 3 = 0#3 ∧
    e.status.extractLsb' 12 4 = e.errCode ∧ e.status.extractLsb' 16 16 = 0#16

/-- R35, R214: no hidden state. Two engines that read alike at STATUS, ACC and SEG0 to SEG3 are the same. -/
def Obligations.EveryElementIsReadable : Prop :=
  ∀ e f : Engine,
    readReg .status e = readReg .status f → readReg .acc e = readReg .acc f →
    (∀ i, readReg (.seg i) e = readReg (.seg i) f) → e = f

/-- R60 with R53, R54 and R230: only a CMD write or the reset event changes the block's state. -/
def Obligations.OnlyCommandsAndResetChangeState : Prop :=
  ∀ s t : State, step s = .next t → t.engine ≠ s.engine →
    ∃ rest, s.pending = .reset :: rest ∨ ∃ w, s.pending = commandEvent w :: rest

/-- R237, R231, R52: the step answers a next state, with that one event performed, on every event the spec defines, and
refuses exactly the others; with nothing pending the state is kept (log entry 3). -/
def Obligations.DefinedEventsComplete : Prop :=
  (∀ (e : Engine) (ev : HostEvent) (rest : List HostEvent) (rs : List Response), ev.defined = true →
    ∃ e' rs', step ⟨e, ev :: rest, rs⟩ = .next ⟨e', rest, rs'⟩) ∧
  (∀ (e : Engine) (ev : HostEvent) (rest : List HostEvent) (rs : List Response), ev.defined = false →
    ∃ r, step ⟨e, ev :: rest, rs⟩ = .refused r) ∧
  (∀ (e : Engine) (rs : List Response), step ⟨e, [], rs⟩ = .next ⟨e, [], rs⟩)

/-! ## The formatter and the digest -/

/-- R170: HEXCHAR is 0x30 + d below 10 and 0x57 + d from 10 up, which is a digit or one of a to f. -/
def Obligations.HexCharValues : Prop :=
  ∀ d : BitVec 4,
    (d.toNat < 10 → (hexChar d).toNat = 0x30 + d.toNat) ∧
    (10 ≤ d.toNat → (hexChar d).toNat = 0x57 + d.toNat ∧ (hexChar d).toNat = 0x61 + (d.toNat - 10))

/-- R171: FORMAT8 gives eight characters, character k being HEXCHAR of bits [31 − 4k : 28 − 4k], and no digit is dropped: two
values with the same characters are equal. -/
def Obligations.FormatEightDropsNothing : Prop :=
  (∀ s : Word, (format8 s).length = 8 ∧
    ∀ k : Fin 8, (format8 s)[k.val]? = some (hexChar (BitVec.ofNat 4 (s.toNat / 2 ^ (28 - 4 * k.val) % 16)))) ∧
  (∀ a b : Word, format8 a = format8 b → a = b)

/-- R172: character j of the digest is character j mod 8 of FORMAT8 of segment j div 8. -/
def Obligations.DigestCharactersInOrder : Prop :=
  ∀ (e : Engine) (j : Fin 32),
    e.digest[j.val]? = (format8 (e.seg (⟨j.val / 8, by omega⟩ : Fin 4)))[j.val % 8]? ∧ e.digest[j.val]? = some (e.digestChar j)

/-- R173: HEXn holds characters 4n to 4n+3, the first in bits [7:0]; so HEX0 to HEX7, stored by a little-endian host (R56),
spell the digest. -/
def Obligations.HexWordsSpellTheDigest : Prop :=
  ∀ e : Engine,
    (∀ (n : Fin 8) (k : Fin 4),
      some ((e.hexWord n).extractLsb' (8 * k.val) 8) = e.digest[4 * n.val + k.val]?) ∧
    (List.finRange 8).flatMap (fun n => littleEndianBytes (e.hexWord n)) = e.digest

/-- R176, R174: the digest has exactly 32 characters in every state, each one of 0-9a-f; and with the segments at most
0xFFFFFFFE, as FINALIZE leaves them (R29), no segment's group is "ffffffff". -/
def Obligations.DigestIsThirtyTwoHexCharacters : Prop :=
  ∀ e : Engine, e.digest.length = 32 ∧
    (∀ c ∈ e.digest, (0x30 ≤ c.toNat ∧ c.toNat ≤ 0x39) ∨ (0x61 ≤ c.toNat ∧ c.toNat ≤ 0x66)) ∧
    (∀ i : Fin 4, (e.seg i).toNat ≤ 0xFFFFFFFE → format8 (e.seg i) ≠ List.replicate 8 0x66#8)

/-- R175, R235: under the invariant, in the ABSORB phase the segments read 0 and every HEX word reads "0000", and no state
but DONE = 1 with ERR = 0 holds a result (R238). -/
def Obligations.NoDigestBeforeFinalize : Prop :=
  ∀ e : Engine, e.Inv →
    (e.done = false → (∀ i, readReg (.seg i) e = 0#32) ∧ ∀ n, readReg (.hex n) e = 0x30303030#32) ∧
    (∀ d, digestResult e = some d ↔ e.done = true ∧ e.err = false ∧ d = e.digest)

/-- R124: an ABSORB performed when exactly `cps` has been absorbed leaves exactly `cps` and then its code point absorbed: the
k-th ABSORB uses the shift distance k mod 8. -/
def Obligations.AbsorbExtendsTheMessage : Prop :=
  ∀ (cps : List Nat) (cp : BitVec 21) (p : List HostEvent) (rs : List Response), cp.toNat ≤ 0x10FFFF →
    exec (.absorb cp) ⟨Engine.absorbed cps, p, rs⟩ = .next ⟨Engine.absorbed (cps ++ [cp.toNat]), p, rs⟩

/-- R232, R238 with R2 and D7: from any state, poisoned or not, the commands INIT, one ABSORB per code point and FINALIZE run
in that many steps and leave the registers of the source's one-call function on those code points, whose digest is the
result (the placeholder's for the empty message). -/
def Obligations.StreamedMessageGivesItsDigest : Prop :=
  ∀ (e : Engine) (cps : List (BitVec 21)) (rest : List HostEvent) (rs : List Response),
    (∀ cp ∈ cps, cp.toNat ≤ 0x10FFFF) →
    stepN (cps.length + 2) ⟨e, messageEvents cps ++ rest, rs⟩ =
      .next ⟨Engine.finalized (cps.map BitVec.toNat), rest, rs⟩ ∧
    digestResult (Engine.finalized (cps.map BitVec.toNat)) = some (digestOf (cps.map BitVec.toNat))

/-- R125 and the S3 property: "ab" and "ba" have different digests, and the empty message has that of `empty_string`, told
apart by SEEN. -/
def Obligations.OrderMattersAndEmptyIsPlaceholder : Prop :=
  digestOf [0x61, 0x62] ≠ digestOf [0x62, 0x61] ∧
  digestOf [] = digestOf [0x65, 0x6D, 0x70, 0x74, 0x79, 0x5F, 0x73, 0x74, 0x72, 0x69, 0x6E, 0x67] ∧
  (Engine.finalized []).status = 0x0001#32 ∧
  (Engine.finalized [0x65, 0x6D, 0x70, 0x74, 0x79, 0x5F, 0x73, 0x74, 0x72, 0x69, 0x6E, 0x67]).status = 0x0013#32

/-! ## Reset and invariants -/

/-- R36: the reset values, and what the registers read after reset. -/
def Obligations.ResetValues : Prop :=
  State.reset.engine =
    { acc := 0#32, pos := 0#3, seen := false, done := false, err := false, errCode := 0#4,
      seg0 := 0#32, seg1 := 0#32, seg2 := 0#32, seg3 := 0#32 } ∧
  readReg .status State.reset.engine = 0x00000000#32 ∧
  (∀ n, readReg (.hex n) State.reset.engine = 0x30303030#32) ∧
  readReg .cmd State.reset.engine = 0x00000000#32

/-- R230, R231: the reset event writes every element's reset value from any state and is complete before the next event; a
reset during a transaction is refused. -/
def Obligations.ResetEventClears : Prop :=
  ∀ (e : Engine) (rest : List HostEvent) (rs : List Response),
    step ⟨e, .reset :: rest, rs⟩ = .next ⟨Engine.reset, rest, rs⟩ ∧
    ∀ tr, step ⟨e, .resetDuring tr :: rest, rs⟩ = .refused .resetDuringTransaction

/-- R34: the invariants hold after reset. -/
def Obligations.InvariantHoldsAtReset : Prop :=
  State.reset.engine.Inv ∧ State.reset.engine.InRange

/-- R34: every step keeps the invariants (a) to (e) and the range of ERRCODE. -/
def Obligations.StepKeepsInvariant : Prop :=
  ∀ s t : State, s.engine.Inv → step s = .next t → t.engine.Inv

/-- R23, R29, R146: under the invariant, every step keeps ACC and the segments below 0xFFFFFFFF. -/
def Obligations.StepKeepsRegistersInRange : Prop :=
  ∀ s t : State, s.engine.Inv → s.engine.InRange → step s = .next t → t.engine.InRange

/-! ## Several agents and instances, and the assembler -/

/-- R63, R213: a step of one instance changes no other, and is that instance's own step. -/
def Obligations.InstancesAreIndependent : Prop :=
  ∀ (sys sys' : List State) (k : Fin sys.length), stepInstance sys k = .next sys' →
    sys'.length = sys.length ∧ (∀ j : Nat, j ≠ k.val → sys'[j]? = sys[j]?) ∧
    ∃ t, step (sys.get k) = .next t ∧ sys'[k.val]? = some t

/-- R58, R63: an interleaving holds every agent's events in that agent's order, and nothing else: it is a rearrangement of
all the agents' events together. -/
def Obligations.InterleavingKeepsEachAgentsOrder : Prop :=
  ∀ (streams : List (List HostEvent)) (order : List HostEvent), Interleaves streams order →
    (∀ st ∈ streams, st.Sublist order) ∧ order.Perm streams.flatten

/-- R88: `ABSORB n` is the word `0x02000000 OR n`, and is refused for n > 0x10FFFF; `.word` can write any 32-bit word. -/
def Obligations.AssemblerCommandWords : Prop :=
  assembleLine .nop = .ok [commandEvent 0x00000000#32] ∧
  assembleLine .init = .ok [commandEvent 0x01000000#32] ∧
  assembleLine .finalize = .ok [commandEvent 0x03000000#32] ∧
  (∀ n : Nat, n ≤ 0x10FFFF → assembleLine (.absorb n) = .ok [commandEvent (0x02000000#32 ||| BitVec.ofNat 32 n)]) ∧
  (∀ n : Nat, 0x10FFFF < n → assembleLine (.absorb n) = .error .codePointRange) ∧
  (∀ w : Word, assembleLine (.word w.toNat) = .ok [commandEvent w])

/-- R89: `HASH "s"` expands to INIT, one ABSORB per code point in order, FINALIZE; `ABSORBS "s"` to the ABSORBs alone. -/
def Obligations.HashExpandsToTheMessage : Prop :=
  ∀ text : List Nat, (∀ n ∈ text, n ≤ 0x10FFFF) →
    assembleLine (.absorbs text) = .ok (text.map (fun n => commandEvent (encode (.absorb (BitVec.ofNat 21 n))))) ∧
    assembleLine (.hash text) = .ok (messageEvents (text.map (BitVec.ofNat 21)))
end

