-- ==== Sys2Proof/Laws/Arith.lean ====
section
/-! SUPPORT. Bounds of the natural-number datapaths (R121, R143, R147): what each stage keeps below 2^32 or reduced. -/

namespace Sys2Proof.Machine

theorem Const.M_eq : Const.M = 2 ^ 32 - 1 := rfl

theorem mod_M_lt (x : Nat) : x % Const.M < Const.M := Nat.mod_lt _ (by decide)

/-- XOR with a right shift of itself stays inside the width. -/
theorem xor_shiftRight_lt {x : Nat} (k : Nat) (h : x < 2 ^ 32) : x ^^^ (x >>> k) < 2 ^ 32 :=
  Nat.xor_lt_two_pow h (lt_of_le_of_lt (Nat.shiftRight_le x k) h)

theorem foldHalves_lt {u : Nat} (h : u < 2 ^ 32) : foldHalves u < 2 ^ 32 := xor_shiftRight_lt _ h

/-- Step 1 ends with `mod M` (R23, R123). -/
theorem mix_lt (acc pos v : Nat) : mix acc pos v < Const.M := mod_M_lt _

/-- Step 1 over any sequence from 0 stays reduced (R23). -/
theorem mixFrom_lt (cps : List Nat) : ∀ (i acc : Nat), acc < Const.M → mixFrom i acc cps < Const.M := by
  induction cps with
  | nil => intro i acc h; exact h
  | cons v vs ih => intro i acc _; exact ih _ _ (mix_lt _ _ _)

/-- Step 1 over a sequence and one more code point (R124). -/
theorem mixFrom_append_one (cps : List Nat) (v : Nat) :
    ∀ i acc, mixFrom i acc (cps ++ [v]) = mix (mixFrom i acc cps) ((i + cps.length) % Const.cycle) v := by
  induction cps with
  | nil => intro i acc; rfl
  | cons w ws ih =>
    intro i acc
    simp only [List.cons_append, mixFrom, ih, List.length_cons]
    rw [Nat.add_right_comm i 1, Nat.add_assoc i]

/-- An XOR with a reduced operand stays below 2^32 (R145). -/
theorem xor_mod_lt {a : Nat} (x : Nat) (h : a < 2 ^ 32) : a ^^^ (x % Const.M) < 2 ^ 32 :=
  Nat.xor_lt_two_pow h (lt_trans (mod_M_lt x) (by decide))

theorem subL13_lt {a : Nat} (h : a < 2 ^ 32) : subL13 a < 2 ^ 32 := xor_mod_lt _ h
theorem subR7_lt {a : Nat} (h : a < 2 ^ 32) : subR7 a < 2 ^ 32 := xor_mod_lt _ h
theorem subL17_lt {a : Nat} (h : a < 2 ^ 32) : subL17 a < 2 ^ 32 := xor_mod_lt _ h

theorem avalancheRound_lt {a : Nat} (h : a < 2 ^ 32) : avalancheRound a < 2 ^ 32 :=
  subL17_lt (subR7_lt (subL13_lt h))

/-- Every value of Step 2 fits 32 bits (R145). -/
theorem avalancheRounds_lt : ∀ (n a : Nat), a < 2 ^ 32 → avalancheRounds n a < 2 ^ 32
  | 0, _, h => h
  | n + 1, _, h => avalancheRounds_lt n _ (avalancheRound_lt h)

theorem avalanche_lt {a : Nat} (h : a < 2 ^ 32) : avalanche a < 2 ^ 32 := avalancheRounds_lt _ a h

/-- Step 3 ends with `mod M` (R29, R147). -/
theorem segmentExpand_lt (a i : Nat) : segmentExpand a i < Const.M := mod_M_lt _

theorem toNat_ofNat_of_lt {x : Nat} (h : x < 2 ^ 32) : (BitVec.ofNat 32 x).toNat = x := by
  rw [BitVec.toNat_ofNat, Nat.mod_eq_of_lt h]

theorem toNat_ofNat_of_lt_M {x : Nat} (h : x < Const.M) : (BitVec.ofNat 32 x).toNat = x :=
  toNat_ofNat_of_lt (lt_trans h (by decide))

end Sys2Proof.Machine
end

