-- ==== Sys2Proof/Laws/Decode.lean ====
section
/-! SUPPORT. The fields of a packed word, the fields of a word as numbers, and everything the decoder can answer. -/

namespace Sys2Proof

@[simp] theorem opField_packCommand (op : BitVec 8) (cp : BitVec 21) : opField (packCommand op cp) = op := by
  ext i hi
  simp only [opField, packCommand, BitVec.getElem_extractLsb', BitVec.getLsbD_append]
  have : ¬ (24 + i < 3 + 21) := by omega
  simp [show 24 + i - 24 = i by omega, BitVec.getLsbD_eq_getElem hi]

@[simp] theorem rsvField_packCommand (op : BitVec 8) (cp : BitVec 21) : rsvField (packCommand op cp) = 0#3 := by
  ext i hi
  simp only [rsvField, packCommand, BitVec.getElem_extractLsb', BitVec.getLsbD_append]
  have h1 : 21 + i < 3 + 21 := by omega
  simp [h1]

@[simp] theorem cpField_packCommand (op : BitVec 8) (cp : BitVec 21) : cpField (packCommand op cp) = cp := by
  ext i hi
  simp only [cpField, packCommand, BitVec.getElem_extractLsb', BitVec.getLsbD_append]
  have h1 : 0 + i < 3 + 21 := by omega
  have h2 : 0 + i < 21 := by omega
  simp [show i < 24 by omega, hi]

@[simp] theorem low24Field_packCommand_zero (op : BitVec 8) : low24Field (packCommand op 0#21) = 0#24 := by
  ext i hi
  simp only [low24Field, packCommand, BitVec.getElem_extractLsb', BitVec.getLsbD_append]
  simp [hi]

theorem opField_toNat (w : Word) : (opField w).toNat = w.toNat / 2 ^ 24 := by
  simp only [opField, BitVec.extractLsb'_toNat, Nat.shiftRight_eq_div_pow]
  omega

theorem rsvField_toNat (w : Word) : (rsvField w).toNat = w.toNat / 2 ^ 21 % 8 := by
  simp [rsvField, BitVec.extractLsb'_toNat, Nat.shiftRight_eq_div_pow]

theorem cpField_toNat (w : Word) : (cpField w).toNat = w.toNat % 2 ^ 21 := by
  simp [cpField, BitVec.extractLsb'_toNat]

theorem low24Field_toNat (w : Word) : (low24Field w).toNat = w.toNat % 2 ^ 24 := by
  simp [low24Field, BitVec.extractLsb'_toNat]

/-- Everything the decoder can answer (R82, R83, R84). -/
theorem decode_cases (w : Word) :
    (3 < w.toNat / 2 ^ 24 ∧ decode w = .error .reservedOpcode) ∨
    (w.toNat / 2 ^ 24 = 2 ∧ w.toNat / 2 ^ 21 % 8 ≠ 0 ∧ decode w = .error .reservedBits) ∨
    (w.toNat / 2 ^ 24 ≤ 3 ∧ w.toNat / 2 ^ 24 ≠ 2 ∧ w.toNat % 2 ^ 24 ≠ 0 ∧ decode w = .error .reservedBits) ∨
    (w.toNat = 0 ∧ decode w = .ok .nop) ∨
    (w.toNat = 0x01000000 ∧ decode w = .ok .init) ∨
    (w.toNat / 2 ^ 24 = 2 ∧ w.toNat / 2 ^ 21 % 8 = 0 ∧ decode w = .ok (.absorb (cpField w))) ∨
    (w.toNat = 0x03000000 ∧ decode w = .ok .finalize) := by
  have hop := opField_toNat w
  have hrsv := rsvField_toNat w
  have hlow := low24Field_toNat w
  have hdiv := Nat.div_add_mod w.toNat (2 ^ 24)
  simp only [decode, gt_iff_lt, BitVec.lt_def, BitVec.toNat_eq, ne_eq, opFinalize, opAbsorb, opNop, opInit,
    BitVec.toNat_ofNat, hop, hrsv, hlow]
  norm_num
  split_ifs <;> simp <;> omega

end Sys2Proof
end

