-- ==== Sys2Proof/Laws/State.lean ====
section
/-! SUPPORT. One lemma per field per update of the state and the engine, so that no later proof unfolds a record update. -/

namespace Sys2Proof.Machine

variable (s : State) (e : Engine) (c : CmdError) (v : Nat) (w : Word) (off : Int)

@[simp] theorem State.withEngine_engine : (s.withEngine e).engine = e := rfl
@[simp] theorem State.withEngine_pending : (s.withEngine e).pending = s.pending := rfl
@[simp] theorem State.withEngine_responses : (s.withEngine e).responses = s.responses := rfl

@[simp] theorem State.reset_engine : State.reset.engine = Engine.reset := rfl
@[simp] theorem State.reset_pending : State.reset.pending = [] := rfl
@[simp] theorem State.reset_responses : State.reset.responses = [] := rfl

@[simp] theorem resetEngine_engine : (resetEngine s).engine = Engine.reset := rfl
@[simp] theorem resetEngine_pending : (resetEngine s).pending = s.pending := rfl
@[simp] theorem resetEngine_responses : (resetEngine s).responses = s.responses := rfl

@[simp] theorem respond_engine : (respond off w s).engine = s.engine := rfl
@[simp] theorem respond_pending : (respond off w s).pending = s.pending := rfl
@[simp] theorem respond_responses : (respond off w s).responses = ⟨off, w⟩ :: s.responses := rfl

@[simp] theorem raiseCmdError_engine : (raiseCmdError c s).engine = s.engine.recordError c := rfl
@[simp] theorem raiseCmdError_pending : (raiseCmdError c s).pending = s.pending := rfl
@[simp] theorem raiseCmdError_responses : (raiseCmdError c s).responses = s.responses := rfl

@[simp] theorem ignorePoisoned_eq : ignorePoisoned s = s := rfl
@[simp] theorem idle_eq : idle s = s := rfl
@[simp] theorem Engine.init_eq_reset : e.init = Engine.reset := rfl

@[simp] theorem Engine.advance_acc : e.advance.acc = e.acc := rfl
@[simp] theorem Engine.advance_pos :
    e.advance.pos = BitVec.ofNat 3 ((e.pos.toNat + 1) % Const.cycle) := rfl
@[simp] theorem Engine.advance_seen : e.advance.seen = true := rfl
@[simp] theorem Engine.advance_done : e.advance.done = e.done := rfl
@[simp] theorem Engine.advance_err : e.advance.err = e.err := rfl
@[simp] theorem Engine.advance_errCode : e.advance.errCode = e.errCode := rfl
@[simp] theorem Engine.advance_seg (i : Fin 4) : e.advance.seg i = e.seg i := by
  fin_cases i <;> rfl

@[simp] theorem Engine.absorb_acc :
    (e.absorb v).acc = BitVec.ofNat 32 (mix e.accNat e.posNat v) := rfl
@[simp] theorem Engine.absorb_pos :
    (e.absorb v).pos = BitVec.ofNat 3 ((e.pos.toNat + 1) % Const.cycle) := rfl
@[simp] theorem Engine.absorb_seen : (e.absorb v).seen = true := rfl
@[simp] theorem Engine.absorb_done : (e.absorb v).done = e.done := rfl
@[simp] theorem Engine.absorb_err : (e.absorb v).err = e.err := rfl
@[simp] theorem Engine.absorb_errCode : (e.absorb v).errCode = e.errCode := rfl
@[simp] theorem Engine.absorb_seg (i : Fin 4) : (e.absorb v).seg i = e.seg i := by
  fin_cases i <;> rfl

@[simp] theorem Engine.writeSegs_acc (f : Fin Const.segments → Word) : (e.writeSegs f).acc = e.acc := rfl
@[simp] theorem Engine.writeSegs_pos (f : Fin Const.segments → Word) : (e.writeSegs f).pos = e.pos := rfl
@[simp] theorem Engine.writeSegs_seen (f : Fin Const.segments → Word) : (e.writeSegs f).seen = e.seen := rfl
@[simp] theorem Engine.writeSegs_done (f : Fin Const.segments → Word) : (e.writeSegs f).done = e.done := rfl
@[simp] theorem Engine.writeSegs_err (f : Fin Const.segments → Word) : (e.writeSegs f).err = e.err := rfl
@[simp] theorem Engine.writeSegs_errCode (f : Fin Const.segments → Word) :
    (e.writeSegs f).errCode = e.errCode := rfl
@[simp] theorem Engine.writeSegs_seg0 (f : Fin Const.segments → Word) : (e.writeSegs f).seg0 = f 0 := rfl
@[simp] theorem Engine.writeSegs_seg1 (f : Fin Const.segments → Word) : (e.writeSegs f).seg1 = f 1 := rfl
@[simp] theorem Engine.writeSegs_seg2 (f : Fin Const.segments → Word) : (e.writeSegs f).seg2 = f 2 := rfl
@[simp] theorem Engine.writeSegs_seg3 (f : Fin Const.segments → Word) : (e.writeSegs f).seg3 = f 3 := rfl
@[simp] theorem Engine.writeSegs_seg (f : Fin Const.segments → Word) (i : Fin Const.segments) :
    (e.writeSegs f).seg i = f i := by
  fin_cases i <;> rfl

@[simp] theorem Engine.latch_acc : (e.latch v).acc = BitVec.ofNat 32 v := rfl
@[simp] theorem Engine.latch_seg0 : (e.latch v).seg0 = BitVec.ofNat 32 (segmentExpand v 0) := rfl
@[simp] theorem Engine.latch_seg1 : (e.latch v).seg1 = BitVec.ofNat 32 (segmentExpand v 1) := rfl
@[simp] theorem Engine.latch_seg2 : (e.latch v).seg2 = BitVec.ofNat 32 (segmentExpand v 2) := rfl
@[simp] theorem Engine.latch_seg3 : (e.latch v).seg3 = BitVec.ofNat 32 (segmentExpand v 3) := rfl

@[simp] theorem Engine.finalize_acc :
    e.finalize.acc = BitVec.ofNat 32 (avalanche e.messageAcc) := rfl
@[simp] theorem Engine.finalize_pos : e.finalize.pos = e.pos := rfl
@[simp] theorem Engine.finalize_seen : e.finalize.seen = e.seen := rfl
@[simp] theorem Engine.finalize_done : e.finalize.done = true := rfl
@[simp] theorem Engine.finalize_err : e.finalize.err = e.err := rfl
@[simp] theorem Engine.finalize_errCode : e.finalize.errCode = e.errCode := rfl
@[simp] theorem Engine.finalize_seg (i : Fin 4) :
    e.finalize.seg i = BitVec.ofNat 32 (segmentExpand (avalanche e.messageAcc) i.val) := by
  fin_cases i <;> rfl

@[simp] theorem Engine.recordError_acc : (e.recordError c).acc = e.acc := by
  unfold Engine.recordError; split <;> rfl
@[simp] theorem Engine.recordError_pos : (e.recordError c).pos = e.pos := by
  unfold Engine.recordError; split <;> rfl
@[simp] theorem Engine.recordError_seen : (e.recordError c).seen = e.seen := by
  unfold Engine.recordError; split <;> rfl
@[simp] theorem Engine.recordError_done : (e.recordError c).done = e.done := by
  unfold Engine.recordError; split <;> rfl
@[simp] theorem Engine.recordError_err : (e.recordError c).err = true := by
  unfold Engine.recordError; split <;> simp_all
@[simp] theorem Engine.recordError_seg (i : Fin 4) : (e.recordError c).seg i = e.seg i := by
  unfold Engine.recordError; split <;> fin_cases i <;> rfl

/-- Two engines with the same elements are the same (R20). -/
theorem Engine.eq_of_fields {e f : Engine} (hacc : e.acc = f.acc) (hpos : e.pos = f.pos) (hseen : e.seen = f.seen)
    (hdone : e.done = f.done) (herr : e.err = f.err) (hcode : e.errCode = f.errCode)
    (hseg : ∀ i, e.seg i = f.seg i) : e = f := by
  cases e; cases f
  have h0 := hseg 0; have h1 := hseg 1; have h2 := hseg 2; have h3 := hseg 3
  simp only [Engine.seg] at h0 h1 h2 h3
  simp_all

end Sys2Proof.Machine
end

