-- ==== Sys2Proof/Laws/Format.lean ====
section
/-! SUPPORT. The formatter's lists written out, and the lengths of R8 related: what the unrolled text of 43_format.md says. -/

namespace Sys2Proof.Machine

/-- R8: "32 characters, 8 per segment", of four segments. -/
theorem Const.digestLength_eq : Const.digestLength = Const.segments * Const.charsPerSegment := rfl

/-- FORMAT8's characters one by one (R171). -/
theorem format8_eq (s : Word) :
    format8 s =
      [hexChar (nibble s 0), hexChar (nibble s 1), hexChar (nibble s 2), hexChar (nibble s 3),
       hexChar (nibble s 4), hexChar (nibble s 5), hexChar (nibble s 6), hexChar (nibble s 7)] := rfl

@[simp] theorem format8_length (s : Word) : (format8 s).length = Const.charsPerSegment := rfl

/-- Step 4's cap removes no character (R174): the digest is the concatenation of the four groups. -/
theorem joinSegments_eq (seg : Fin Const.segments → Word) :
    joinSegments seg = format8 (seg 0) ++ format8 (seg 1) ++ format8 (seg 2) ++ format8 (seg 3) := rfl

/-- The digest as its four groups (R172). -/
theorem Engine.digest_eq (e : Engine) :
    e.digest = format8 e.seg0 ++ format8 e.seg1 ++ format8 e.seg2 ++ format8 e.seg3 := rfl

/-- The digest of an engine whose segments were just written (R29, R172). -/
@[simp] theorem Engine.digest_writeSegs (e : Engine) (f : Fin Const.segments → Word) :
    (e.writeSegs f).digest = joinSegments f :=
  congrArg joinSegments (funext (Engine.writeSegs_seg e f))

/-- The fields of the engine a message ends in (R140, R238). -/
@[simp] theorem Engine.finalized_acc (cps : List Nat) :
    (Engine.finalized cps).acc = BitVec.ofNat 32 (digestAcc cps) := rfl
@[simp] theorem Engine.finalized_done (cps : List Nat) : (Engine.finalized cps).done = true := rfl
@[simp] theorem Engine.finalized_err (cps : List Nat) : (Engine.finalized cps).err = false := rfl
@[simp] theorem Engine.finalized_digest (cps : List Nat) : (Engine.finalized cps).digest = digestOf cps :=
  Engine.digest_writeSegs _ _

/-- The digest of a message as its four groups (R172). -/
theorem digestOf_eq (cps : List Nat) :
    digestOf cps =
      format8 (digestSegment cps 0) ++ format8 (digestSegment cps 1) ++ format8 (digestSegment cps 2)
        ++ format8 (digestSegment cps 3) := rfl

end Sys2Proof.Machine
end

