-- ==== Sys2Proof/Laws/Ops.lean ====
section
/-! SUPPORT. For each shared operation and meaning, one lemma that says everything it can do. -/

namespace Sys2Proof.Machine

/-- R202 with nothing recorded yet. -/
theorem recordError_fresh {e : Engine} (c : CmdError) (h : e.err = false) :
    e.recordError c = { e with err := true, errCode := c.code } := by
  simp [Engine.recordError, h]

/-- R202 with an error recorded already. -/
@[simp] theorem recordError_kept {e : Engine} (c : CmdError) (h : e.err = true) : e.recordError c = e := by
  simp [Engine.recordError, h]

/-- Every code raised is one of 1 to 5 (R201). -/
theorem code_range (c : CmdError) : 1 ≤ c.code.toNat ∧ c.code.toNat ≤ 5 := by
  cases c <;> decide

/-- The same fact without numbers: no code raised is the "none" code. -/
theorem code_ne_zero (c : CmdError) : c.code ≠ 0#4 := by
  cases c <;> decide

/-- Everything ABSORB can do (R85, R120). -/
theorem execAbsorb_cases {cp : BitVec 21} {s t : State} (h : execAbsorb cp s = .next t) :
    (s.engine.err = true ∧ t = s) ∨
    (s.engine.err = false ∧ s.engine.done = true ∧ t = raiseCmdError .absorbDone s) ∨
    (s.engine.err = false ∧ s.engine.done = false ∧ cp.toNat ≤ 0x10FFFF ∧
      t = s.withEngine (s.engine.absorb cp.toNat)) ∨
    (s.engine.err = false ∧ s.engine.done = false ∧ 0x10FFFF < cp.toNat ∧ t = raiseCmdError .cpRange s) := by
  unfold execAbsorb codePointInRange codePoint Const.maxCodePoint at h
  cases he : s.engine.err <;> cases hd : s.engine.done <;> simp only [he, hd] at h ⊢
  · by_cases hc : cp.toNat ≤ 0x10FFFF <;> simp_all
  all_goals simp_all

/-- Everything FINALIZE can do (R85, R140). -/
theorem execFinalize_cases {s t : State} (h : execFinalize s = .next t) :
    (s.engine.err = true ∧ t = s) ∨
    (s.engine.err = false ∧ s.engine.done = true ∧ t = raiseCmdError .finalDone s) ∨
    (s.engine.err = false ∧ s.engine.done = false ∧ t = s.withEngine s.engine.finalize) := by
  unfold execFinalize at h
  cases he : s.engine.err <;> cases hd : s.engine.done <;> simp_all

end Sys2Proof.Machine
end

