-- ==== Sys2Proof/Laws/PerInstr.lean ====
section
/-! SUPPORT. A fact about every command as syntax, one lemma per constructor: its word has RSV = 0 and an OP of the opcode
map, so no encoding of a command is reserved (R80, R82). -/

namespace Sys2Proof.Laws

/-- The OP of each row of the opcode map (R82). -/
def EncodeShape.op : Instr → BitVec 8
  | .nop => 0x00#8
  | .init => 0x01#8
  | .absorb _ => 0x02#8
  | .finalize => 0x03#8

/-- The CP field of each command's word: "must be 0 for every other operation" than ABSORB (R80). -/
def EncodeShape.cp : Instr → BitVec 21
  | .nop => 0#21
  | .init => 0#21
  | .absorb cp => cp
  | .finalize => 0#21

def EncodeShape.Statement (i : Instr) : Prop :=
  opField (encode i) = EncodeShape.op i ∧ rsvField (encode i) = 0#3 ∧ cpField (encode i) = EncodeShape.cp i

theorem EncodeShape.nop : EncodeShape.Statement .nop := by
  simp [EncodeShape.Statement, encode, EncodeShape.op, EncodeShape.cp, opNop]

theorem EncodeShape.init : EncodeShape.Statement .init := by
  simp [EncodeShape.Statement, encode, EncodeShape.op, EncodeShape.cp, opInit]

theorem EncodeShape.absorb (cp : BitVec 21) : EncodeShape.Statement (.absorb cp) := by
  simp [EncodeShape.Statement, encode, EncodeShape.op, EncodeShape.cp, opAbsorb]

theorem EncodeShape.finalize : EncodeShape.Statement .finalize := by
  simp [EncodeShape.Statement, encode, EncodeShape.op, EncodeShape.cp, opFinalize]

end Sys2Proof.Laws
end

