-- ==== Sys2Proof/Laws/Rotation.lean ====
section
/-! SUPPORT. The sub-steps of Step 2 on 32-bit words, as the backward search of 95_test_vectors.md §2.3 uses them: XOR with
an odd rotation identifies only a word and its complement and has even parity; XOR with a right shift is injective. -/

namespace Sys2Proof.Machine

/-- Bit i of a word, its position counted modulo 32. -/
def bitAt (x : Word) (i : Fin 32) : Bool := x.getLsbD i.val

/-- The parity of a word: the sum of its bits modulo 2. -/
def parity (x : Word) : ZMod 2 := ∑ i : Fin 32, if bitAt x i then 1 else 0

theorem word_ext {x y : Word} (h : ∀ i, bitAt x i = bitAt y i) : x = y :=
  BitVec.eq_of_getLsbD_eq (fun i hi => h ⟨i, hi⟩)

@[simp] theorem bitAt_xor (x y : Word) (i : Fin 32) : bitAt (x ^^^ y) i = (bitAt x i ^^ bitAt y i) := by
  simp [bitAt]

theorem bitAt_rotateLeft_13 (x : Word) (i : Fin 32) : bitAt (x.rotateLeft 13) i = bitAt x (i + 19) := by
  fin_cases i <;> simp [bitAt]

theorem bitAt_rotateLeft_17 (x : Word) (i : Fin 32) : bitAt (x.rotateLeft 17) i = bitAt x (i + 15) := by
  fin_cases i <;> simp [bitAt]

theorem parity_xor (x y : Word) : parity (x ^^^ y) = parity x + parity y := by
  rw [parity, parity, parity, ← Finset.sum_add_distrib]
  refine Finset.sum_congr rfl (fun i _ => ?_)
  rw [bitAt_xor]
  cases bitAt x i <;> cases bitAt y i <;> decide

theorem parity_of_rotated {x y : Word} (k : Fin 32) (h : ∀ i, bitAt y i = bitAt x (i + k)) : parity y = parity x := by
  rw [parity, parity, ← Equiv.sum_comp (Equiv.addRight k) (fun i => if bitAt x i then (1 : ZMod 2) else 0)]
  exact Finset.sum_congr rfl (fun i _ => by rw [h]; rfl)

/-- An XOR of a word with its rotation has even parity. -/
theorem parity_xor_rotated {x y : Word} (k : Fin 32) (h : ∀ i, bitAt y i = bitAt x (i + k)) : parity (x ^^^ y) = 0 := by
  rw [parity_xor, parity_of_rotated k h]
  exact CharTwo.add_self_eq_zero _

/-- A word that an odd rotation leaves alone is all zeros or all ones. -/
theorem constant_of_rotation_fixed {d : Word} (k : Fin 32) (hk : ∀ i : Fin 32, ∃ n : Fin 32, n * k = i)
    (h : ∀ i, bitAt d i = bitAt d (i + k)) : d = 0#32 ∨ d = 0xFFFFFFFF#32 := by
  have walk : ∀ n : Nat, bitAt d 0 = bitAt d (Fin.ofNat 32 n * k) := by
    intro n
    induction n with
    | zero => congr 1; simp
    | succ n ih =>
      rw [ih, h]; congr 1
      rw [show Fin.ofNat 32 (n + 1) = Fin.ofNat 32 n + 1 by ext; simp [Fin.val_add], add_mul, one_mul]
  have all : ∀ i, bitAt d i = bitAt d 0 := by
    intro i
    obtain ⟨n, rfl⟩ := hk i
    rw [walk n.val]; congr 2; ext; simp
  cases h0 : bitAt d 0 with
  | false => exact .inl (word_ext (fun i => by rw [all, h0]; simp [bitAt]))
  | true => exact .inr (word_ext (fun i => by rw [all, h0]; revert i; decide))

/-- XOR with an odd rotation identifies only a word and its complement. -/
theorem eq_or_complement_of_xor_rotateLeft {k : Nat} (j : Fin 32) (hj : ∀ i : Fin 32, ∃ n : Fin 32, n * j = i)
    (hbit : ∀ (z : Word) (i : Fin 32), bitAt (z.rotateLeft k) i = bitAt z (i + j)) {x y : Word}
    (h : x ^^^ x.rotateLeft k = y ^^^ y.rotateLeft k) : x = y ∨ x = y ^^^ 0xFFFFFFFF#32 := by
  have fixed : ∀ i, bitAt (x ^^^ y) i = bitAt (x ^^^ y) (i + j) := by
    intro i
    have hi := congrArg (fun z => bitAt z i) h
    simp only [bitAt_xor, hbit] at hi ⊢
    revert hi
    cases bitAt x i <;> cases bitAt y i <;> cases bitAt x (i + j) <;> cases bitAt y (i + j) <;> simp
  rcases constant_of_rotation_fixed j hj fixed with h0 | h0
  · exact .inl (BitVec.xor_eq_zero_iff.mp h0)
  · exact .inr (by rw [← h0, BitVec.xor_comm x y, ← BitVec.xor_assoc]; simp)

/-- The right-shift sub-step loses nothing. -/
theorem xor_shiftRight_seven_injective {x y : Word} (h : x ^^^ x >>> 7 = y ^^^ y >>> 7) : x = y := by
  have bits : ∀ m i : Nat, 31 < i + 7 * m → x.getLsbD i = y.getLsbD i := by
    intro m
    induction m with
    | zero => intro i hi; simp [BitVec.getLsbD_of_ge x i (by omega), BitVec.getLsbD_of_ge y i (by omega)]
    | succ m ih =>
      intro i hi
      have hb := congrArg (fun z => z.getLsbD i) h
      simp only [BitVec.getLsbD_xor, BitVec.getLsbD_ushiftRight, ih (7 + i) (by omega)] at hb
      simpa using hb
  exact BitVec.eq_of_getLsbD_eq (fun i _ => bits 5 i (by omega))

/-- 19 = 32 − 13 and 15 = 32 − 17 generate every bit position modulo 32. -/
theorem nineteen_generates : ∀ i : Fin 32, ∃ n : Fin 32, n * 19 = i := by decide

theorem fifteen_generates : ∀ i : Fin 32, ∃ n : Fin 32, n * 15 = i := by decide

/-- What the left-shift sub-steps map to a known image: the word, its complement, or the all-ones word. -/
theorem rotateOrZero_13_preimage {x : Word} (c : Word)
    (h : x ^^^ rotateOrZero 13 x = c ^^^ c.rotateLeft 13) :
    x = c ∨ x = c ^^^ 0xFFFFFFFF#32 ∨ (x = 0xFFFFFFFF#32 ∧ c ^^^ c.rotateLeft 13 = 0xFFFFFFFF#32) := by
  unfold rotateOrZero at h
  split at h
  · next hx => subst hx; exact .inr (.inr ⟨rfl, by simpa using h.symm⟩)
  · rcases eq_or_complement_of_xor_rotateLeft 19 nineteen_generates bitAt_rotateLeft_13 h with h | h
    · exact .inl h
    · exact .inr (.inl h)

theorem rotateOrZero_17_preimage {x : Word} (c : Word)
    (h : x ^^^ rotateOrZero 17 x = c ^^^ c.rotateLeft 17) :
    x = c ∨ x = c ^^^ 0xFFFFFFFF#32 ∨ (x = 0xFFFFFFFF#32 ∧ c ^^^ c.rotateLeft 17 = 0xFFFFFFFF#32) := by
  unfold rotateOrZero at h
  split at h
  · next hx => subst hx; exact .inr (.inr ⟨rfl, by simpa using h.symm⟩)
  · rcases eq_or_complement_of_xor_rotateLeft 15 fifteen_generates bitAt_rotateLeft_17 h with h | h
    · exact .inl h
    · exact .inr (.inl h)

/-- The image of sub-step L13 is even, except for the all-ones word itself, which is even too. -/
theorem parity_rotateOrZero_13 (x : Word) : parity (x ^^^ rotateOrZero 13 x) = 0 := by
  unfold rotateOrZero
  split
  · next hx => subst hx; decide
  · exact parity_xor_rotated 19 (bitAt_rotateLeft_13 x)

/-- The same of sub-step L17. -/
theorem parity_rotateOrZero_17 (x : Word) : parity (x ^^^ rotateOrZero 17 x) = 0 := by
  unfold rotateOrZero
  split
  · next hx => subst hx; decide
  · exact parity_xor_rotated 15 (bitAt_rotateLeft_17 x)

end Sys2Proof.Machine
end

