-- ==== Sys2Proof/Laws/Window.lean ====
section
/-! SUPPORT. Every register is reached at its offset (R51), and addresses and offsets correspond (R65). -/

namespace Sys2Proof.Machine

@[simp] theorem resolve_offset (r : Reg) : resolve r.offset 4 = some r := by
  cases r with
  | cmd => rfl
  | status => rfl
  | acc => rfl
  | reserved => rfl
  | seg i => fin_cases i <;> rfl
  | hex n => fin_cases n <;> rfl

/-- Everything `resolve` can answer: an access of R52 reaches the register of its offset, any other reaches none. -/
theorem resolve_cases (off : Int) (size : Nat) :
    ((size = 4 ∧ off % 4 = 0 ∧ 0 ≤ off ∧ off ≤ 0x3C) ∧ ∃ r : Reg, r.offset = off ∧ resolve off size = some r) ∨
    (¬ (size = 4 ∧ off % 4 = 0 ∧ 0 ≤ off ∧ off ≤ 0x3C) ∧ resolve off size = none) := by
  by_cases h : size = 4 ∧ off % 4 = 0 ∧ 0 ≤ off ∧ off ≤ 0x3C
  · refine .inl ⟨h, ?_⟩
    obtain ⟨rfl, hm, h0, h1⟩ := h
    obtain ⟨k, rfl⟩ : ∃ k : Nat, off = 4 * (k : Int) := ⟨(off / 4).toNat, by omega⟩
    have hk : k < 16 := by omega
    interval_cases k <;> exact ⟨_, rfl, rfl⟩
  · exact .inr ⟨h, if_neg h⟩

@[simp] theorem offsetOf_effectiveAddr (off : Int) : offsetOf (effectiveAddr off) = off := by
  simp [offsetOf, effectiveAddr]

@[simp] theorem effectiveAddr_offsetOf (addr : Int) : effectiveAddr (offsetOf addr) = addr := by
  simp [offsetOf, effectiveAddr]

end Sys2Proof.Machine
end

