-- ==== Sys2Proof/Laws/Step.lean ====
section
/-! SUPPORT. Everything one step can do. -/

namespace Sys2Proof.Machine

@[simp] theorem step_idle (e : Engine) (rs : List Response) : step ⟨e, [], rs⟩ = .next ⟨e, [], rs⟩ := rfl

@[simp] theorem step_event (e : Engine) (ev : HostEvent) (rest : List HostEvent) (rs : List Response) :
    step ⟨e, ev :: rest, rs⟩ = performEvent ev ⟨e, rest, rs⟩ := rfl

@[simp] theorem performEvent_command (w : Word) (s : State) : performEvent (commandEvent w) s = performCommand w s := rfl

@[simp] theorem performEvent_reset (s : State) : performEvent .reset s = .next (resetEngine s) := rfl

@[simp] theorem performEvent_read (r : Reg) (s : State) :
    performEvent (.transaction (.read r.offset 4)) s = .next (respond r.offset (readReg r s.engine) s) := by
  simp [performEvent, performTransaction, performRead]

/-- Everything a CMD write can do to the block: an error record, nothing, INIT, ABSORB or FINALIZE (R85). -/
inductive CommandEffect (w : Word) (e : Engine) : Engine → Prop where
  | illegal (d : DecodeError) (h : decode w = .error d) : CommandEffect w e (e.recordError (illegalWordError d))
  | nop (h : decode w = .ok .nop) : CommandEffect w e e
  | init (h : decode w = .ok .init) : CommandEffect w e Engine.reset
  | absorb (cp : BitVec 21) (h : decode w = .ok (.absorb cp)) (herr : e.err = false) (hdone : e.done = false)
      (hcp : cp.toNat ≤ 0x10FFFF) : CommandEffect w e (e.absorb cp.toNat)
  | finalize (h : decode w = .ok .finalize) (herr : e.err = false) (hdone : e.done = false) :
      CommandEffect w e e.finalize
  | refusedOperand (c : CmdError) (i : Instr) (h : decode w = .ok i) (herr : e.err = false) :
      CommandEffect w e (e.recordError c)
  | poisoned (i : Instr) (h : decode w = .ok i) (herr : e.err = true) : CommandEffect w e e

/-- A CMD write always answers a next state, and changes nothing but the engine. -/
theorem performCommand_effect (w : Word) (s : State) :
    ∃ e', performCommand w s = .next (s.withEngine e') ∧ CommandEffect w s.engine e' := by
  unfold performCommand
  cases hd : decode w with
  | error d => exact ⟨_, rfl, .illegal d hd⟩
  | ok i =>
    cases i with
    | nop => exact ⟨s.engine, rfl, .nop hd⟩
    | init => exact ⟨_, rfl, .init hd⟩
    | absorb cp =>
      simp only [exec, execAbsorb, codePointInRange, codePoint, Const.maxCodePoint]
      cases he : s.engine.err with
      | true => exact ⟨s.engine, rfl, .poisoned _ hd he⟩
      | false =>
        cases hdone : s.engine.done with
        | true => exact ⟨_, rfl, .refusedOperand .absorbDone _ hd he⟩
        | false =>
          by_cases hcp : cp.toNat ≤ 0x10FFFF
          · exact ⟨_, by simp [hcp], .absorb cp hd he hdone hcp⟩
          · exact ⟨s.engine.recordError .cpRange, by simp [hcp, raiseCmdError], .refusedOperand .cpRange _ hd he⟩
    | finalize =>
      simp only [exec, execFinalize]
      cases he : s.engine.err with
      | true => exact ⟨s.engine, rfl, .poisoned _ hd he⟩
      | false =>
        cases hdone : s.engine.done with
        | true => exact ⟨_, rfl, .refusedOperand .finalDone _ hd he⟩
        | false => exact ⟨_, rfl, .finalize hd he hdone⟩

/-- A register at the CMD offset is CMD. -/
theorem Reg.eq_cmd_of_offset {r : Reg} (h : r.offset = 0) : r = .cmd := by
  cases r with
  | cmd => rfl
  | status => simp [Reg.offset] at h
  | acc => simp [Reg.offset] at h
  | reserved => simp [Reg.offset] at h
  | seg i => simp only [Reg.offset] at h; omega
  | hex n => simp only [Reg.offset] at h; omega

/-- Everything a step that answers a next state can do: keep the state, answer a read, ignore a write, perform the reset
event, or perform a command. -/
theorem step_cases {s t : State} (h : step s = .next t) :
    (s.pending = [] ∧ t = s) ∨
    (∃ r rest, s.pending = .transaction (.read (Reg.offset r) 4) :: rest ∧ t.pending = rest ∧ t.engine = s.engine ∧
      t.responses = ⟨r.offset, readReg r s.engine⟩ :: s.responses) ∨
    (∃ r v rest, r ≠ .cmd ∧ s.pending = .transaction (.write (Reg.offset r) 4 v) :: rest ∧ t.pending = rest ∧
      t.engine = s.engine ∧ t.responses = s.responses) ∨
    (∃ rest, s.pending = .reset :: rest ∧ t.pending = rest ∧ t.engine = Engine.reset ∧ t.responses = s.responses) ∨
    (∃ w rest, s.pending = commandEvent w :: rest ∧ t.pending = rest ∧ t.responses = s.responses ∧
      CommandEffect w s.engine t.engine) := by
  obtain ⟨e, pending, rs⟩ := s
  cases pending with
  | nil => left; simpa [eq_comm] using h
  | cons ev rest =>
    right
    simp only [step_event] at h
    cases ev with
    | reset =>
      refine .inr (.inr (.inl ⟨rest, rfl, ?_⟩))
      simp only [performEvent, Host.Outcome.next.injEq] at h
      subst h; exact ⟨rfl, rfl, rfl⟩
    | resetDuring tr => simp [performEvent] at h
    | transaction tr =>
      cases tr with
      | read off size =>
        rcases resolve_cases off size with ⟨⟨rfl, _⟩, r, rfl, hr⟩ | ⟨_, hr⟩
        · refine .inl ⟨r, rest, rfl, ?_⟩
          simp only [performEvent_read, Host.Outcome.next.injEq] at h
          subst h; exact ⟨rfl, rfl, rfl⟩
        · simp [performEvent, performTransaction, hr] at h
      | write off size v =>
        rcases resolve_cases off size with ⟨⟨rfl, _⟩, r, rfl, hr⟩ | ⟨_, hr⟩
        · simp only [performEvent, performTransaction, hr] at h
          by_cases hc : r = .cmd
          · subst hc
            obtain ⟨e', he', heff⟩ := performCommand_effect v ⟨e, rest, rs⟩
            simp only [performWrite, he', Host.Outcome.next.injEq] at h
            subst h
            exact .inr (.inr (.inr ⟨v, rest, rfl, rfl, rfl, heff⟩))
          · refine .inr (.inl ⟨r, v, rest, hc, rfl, ?_⟩)
            cases r <;> simp_all [performWrite] <;> subst h <;> exact ⟨rfl, rfl, rfl⟩
        · simp [performEvent, performTransaction, hr] at h

/-- Steps in sequence. -/
theorem stepN_add (m n : Nat) {s t : State} (h : stepN m s = .next t) : stepN (m + n) s = stepN n t := by
  induction m generalizing s with
  | zero => simp only [stepN, Host.Outcome.next.injEq] at h; subst h; simp
  | succ m ih =>
    rw [Nat.succ_add]
    simp only [stepN] at h ⊢
    split at h <;> simp_all

end Sys2Proof.Machine
end

