-- ==== Sys2Proof/Tests/Slice0.lean ====
section
/-! SUPPORT. The model's own tests. Expected values are those of 95_test_vectors.md (its row names stand beside each test), of
the encodings of R80 and R82, or of the rule named. The last part shows, for each statement with hypotheses, values that meet
them. -/

namespace Sys2Proof.Machine.Tests

/-- The state with this engine and nothing pending. -/
def only (e : Engine) : State := ⟨e, [], []⟩

/-- The state with this engine and one event pending. -/
def facing (ev : HostEvent) (e : Engine) : State := ⟨e, [ev], []⟩

/-- The engine after an outcome, if it is a next state. -/
def engineOf (o : Host.Outcome State Fault Refusal) : Option Engine :=
  match o with
  | .next t => some t.engine
  | .fault _ => none
  | .refused _ => none

/-- The values a next state has returned to the host. -/
def valuesOf (o : Host.Outcome State Fault Refusal) : List Word :=
  match o with
  | .next t => t.responses.map (fun r => r.value)
  | .fault _ => []
  | .refused _ => []

/-- The refusal, if there is one. -/
def refusalOf (o : Host.Outcome State Fault Refusal) : Option Refusal :=
  match o with
  | .next _ => none
  | .fault _ => none
  | .refused r => some r

/-- "ab" absorbed (95_test_vectors.md P1). -/
def abAbsorbed : Engine := { Engine.reset with acc := 0xC83#32, pos := 2#3, seen := true }

/-- After P1's FINALIZE. -/
def abDone : Engine :=
  { abAbsorbed with
    acc := 0x41BEF0E8#32, done := true, seg0 := 0xA3E7296D#32, seg1 := 0x8E308701#32, seg2 := 0x38DCBF91#32,
    seg3 := 0x26808882#32 }

/-- After P2: the empty message. -/
def emptyDone : Engine :=
  { Engine.reset with
    acc := 0x3711A961#32, done := true, seg0 := 0x22731495#32, seg1 := 0x822C8EAA#32, seg2 := 0xED74CE0B#32,
    seg3 := 0x03674854#32 }

/-- ERR = 1 with ERRCODE 1, after absorbing 'a' (E17). -/
def poisonedA : Engine :=
  { Engine.reset with acc := 0x61#32, pos := 1#3, seen := true, err := true, errCode := 1#4 }

/-! ### Well-formedness -/

theorem test_wf_refuses_operand_above_range : Instr.wf (.absorb 0x110000#21) = false := by decide
theorem test_wf_accepts_largest_code_point : Instr.wf (.absorb 0x10FFFF#21) = true := by decide

/-! ### Decoding, words written out bit by bit (R80, R82) -/

theorem test_decode_nop : decode 0b00000000_000_000000000000000000000#32 = .ok .nop := by decide
theorem test_decode_init : decode 0b00000001_000_000000000000000000000#32 = .ok .init := by decide
theorem test_decode_absorb : decode 0b00000010_000_000000000000001100010#32 = .ok (.absorb 0x62#21) := by decide
theorem test_decode_absorb_all_cp_bits :
    decode 0b00000010_000_111111111111111111111#32 = .ok (.absorb 0x1FFFFF#21) := by decide
theorem test_decode_finalize : decode 0b00000011_000_000000000000000000000#32 = .ok .finalize := by decide
/-- Rows E1 to E8 of §2.8. -/
theorem test_decode_rejects :
    decode 0x04000000#32 = .error .reservedOpcode ∧ decode 0xFF000000#32 = .error .reservedOpcode ∧
    decode 0x00000001#32 = .error .reservedBits ∧ decode 0x00FFFFFF#32 = .error .reservedBits ∧
    decode 0x01000100#32 = .error .reservedBits ∧ decode 0x03800000#32 = .error .reservedBits ∧
    decode 0x02200041#32 = .error .reservedBits ∧ decode 0x02E00000#32 = .error .reservedBits := by decide
theorem test_decode_table_word :
    decodeTableWord 32 0x02000000 = some (.absorb 0#21) ∧ decodeTableWord 32 0x03000000 = some .finalize ∧
    decodeTableWord 32 0x04000000 = none := by decide

/-- R82: on the bits both rows fix, any two rows of the opcode map differ, so no word belongs to two. -/
theorem test_opcode_rows_disjoint :
    [nopRow, initRow, absorbRow, finalizeRow].Pairwise
      (fun a b => a.pattern &&& (a.mask &&& b.mask) ≠ b.pattern &&& (a.mask &&& b.mask)) := by decide
/-- Log entry 1: a word placed by `withFetchWord` is what the very next step after reset performs (A2). -/
theorem test_fetch_word :
    engineOf (step (State.reset.withFetchWord 32 0x02000061))
      = some { Engine.reset with acc := 0x61#32, pos := 1#3, seen := true } := by decide

/-! ### One step of each command -/

/-- V2: a NOP in the middle of a message. -/
theorem test_nop : engineOf (step (facing (commandEvent 0x00000000#32) abAbsorbed)) = some abAbsorbed := by decide
/-- V3. -/
theorem test_init_after_digest :
    engineOf (step (facing (commandEvent 0x01000000#32) abDone)) = some Engine.reset := by decide
/-- V4: INIT clears an error. -/
theorem test_init_poisoned :
    engineOf (step (facing (commandEvent 0x01000000#32) poisonedA)) = some Engine.reset := by decide
/-- A3, the example of R120. -/
theorem test_absorb_b :
    engineOf (exec (.absorb 0x62#21) (only { Engine.reset with acc := 0x61#32, pos := 1#3, seen := true }))
      = some abAbsorbed := by decide
/-- A4: the largest values, and POS wraps. -/
theorem test_absorb_largest :
    engineOf (exec (.absorb 0x10FFFF#21) (only { Engine.reset with acc := 0xFFFFFFFE#32, pos := 7#3, seen := true }))
      = some { Engine.reset with acc := 0x087FF71E#32, pos := 0#3, seen := true } := by decide
/-- P1. -/
theorem test_finalize_ab : engineOf (exec .finalize (only abAbsorbed)) = some abDone := by decide
/-- P2: the placeholder. -/
theorem test_finalize_empty : engineOf (exec .finalize (only Engine.reset)) = some emptyDone := by decide

/-! ### Errors (§2.8) -/

/-- E10, E12, E13 and E15, as STATUS. -/
theorem test_state_errors :
    (engineOf (step (facing (commandEvent 0x02110000#32) Engine.reset))).map Engine.status = some 0x5100#32 ∧
    (engineOf (step (facing (commandEvent 0x02000078#32) emptyDone))).map Engine.status = some 0x3101#32 ∧
    (engineOf (step (facing (commandEvent 0x02110000#32) emptyDone))).map Engine.status = some 0x3101#32 ∧
    (engineOf (step (facing (commandEvent 0x03000000#32) emptyDone))).map Engine.status = some 0x4101#32 := by decide
/-- E14, E17 and V5: E_RESERVED before the phase; the poisoned state ignores ABSORB and keeps its first code. -/
theorem test_reserved_and_poisoned :
    (engineOf (step (facing (commandEvent 0x02200000#32) emptyDone))).map Engine.status = some 0x2101#32 ∧
    engineOf (step (facing (commandEvent 0x02000062#32) poisonedA)) = some poisonedA ∧
    engineOf (step (facing (commandEvent 0x01000001#32) poisonedA)) = some poisonedA := by decide

/-! ### The pure functions (§2.2 to §2.6) -/

/-- A6 to A10. -/
theorem test_mix :
    mix 0xFFFFFFFE 0 0 = 0xFFFF001F ∧ mix 0xAD6B5294 0 0 = 0 ∧ mix 0x12345678 3 0x20AC = 0x345749BD ∧
    mix 0 0 0xD800 = 0xD800 ∧ mix 0xFFFF 5 0x41 = 0x1F081E := by decide
/-- X3 sub-step by sub-step for its first round, then X5, X6, X7 and X9. -/
theorem test_avalanche :
    subL13 0xC83 = 0x01906C83 ∧ subR7 0x01906C83 = 0x01934C5A ∧ subL17 0x01934C5A = 0x99274F7C ∧
    avalanche 0xC83 = 0x41BEF0E8 ∧ avalanche 1 = 0x5CD09C0B ∧ avalanche 0xFFFFFFFE = 0x5CD09C0B ∧
    avalanche 0x55555555 = 0xD9D260E9 ∧ avalanche 0x80000000 = 0x4557FA8D := by decide
/-- G2 line by line, then G12, G16 and G20. -/
theorem test_segment :
    segOffset 0x3711A961 1 = 0xD549231A ∧
    segMultiply 16 Const.kMix1 0xD549231A = 0x2F0C5335 ∧
    segMultiply 13 Const.kMix2 0x2F0C5335 = 0x822C0C86 ∧
    segFold 0x822C0C86 = 0x822C8EAA ∧
    segmentExpand 0 3 = 0x229EA60A ∧ segmentExpand 1 3 = 0xBAAFBB7B ∧ segmentExpand 0xFFFFFFFE 3 = 0x2CCB4868 := by
  decide
/-- H1 and H2. -/
theorem test_hex_words :
    (List.finRange 8).map Engine.reset.hexWord = List.replicate 8 0x30303030#32 ∧
    (List.finRange 8).map emptyDone.hexWord =
      [0x33373232#32, 0x35393431#32, 0x63323238#32, 0x61616538#32, 0x34376465#32, 0x62306563#32, 0x37363330#32,
       0x34353834#32] := by decide
/-- D8, "hello": acc1, acc2 and the segments. -/
theorem test_digest_hello :
    streamAcc [0x68, 0x65, 0x6C, 0x6C, 0x6F] = 0x061C24D1 ∧ digestAcc [0x68, 0x65, 0x6C, 0x6C, 0x6F] = 0x3B9F83AF ∧
    (List.range 4).map (digestSegment [0x68, 0x65, 0x6C, 0x6C, 0x6F]) =
      [0x66C76482#32, 0xC863E2FB#32, 0x6F4E9B8C#32, 0x16CF4BF3#32] := by decide

/-! ### The window (§2.9) -/

/-- M1, M2 and P1's reads. -/
theorem test_reads :
    valuesOf (step (facing (.transaction (.read 0x00 4)) abDone)) = [0x00000000#32] ∧
    valuesOf (step (facing (.transaction (.read 0x04 4)) abDone)) = [0x0000000B#32] ∧
    valuesOf (step (facing (.transaction (.read 0x0C 4)) abDone)) = [0x00000000#32] ∧
    valuesOf (step (facing (.transaction (.read 0x1C 4)) abDone)) = [0x26808882#32] ∧
    valuesOf (step (facing (.transaction (.read 0x20 4)) abDone)) = [0x37653361#32] ∧
    valuesOf (step (facing (.transaction (.read 0x3C 4)) abDone)) = [0x32383838#32] := by decide
/-- M3 and M5: writes to read-only offsets. -/
theorem test_ignored_writes :
    engineOf (step (facing (.transaction (.write 0x04 4 0xFFFFFFFF#32)) Engine.reset)) = some Engine.reset ∧
    engineOf (step (facing (.transaction (.write 0x20 4 0x41414141#32)) abDone)) = some abDone := by decide
/-- M7 and R231. -/
theorem test_refusals :
    refusalOf (step (facing (.transaction (.read 0x20 1)) abDone)) = some .undefinedAccess ∧
    refusalOf (step (facing (.transaction (.write 0x22 4 0#32)) abDone)) = some .undefinedAccess ∧
    refusalOf (step (facing (.transaction (.read 0x40 4)) abDone)) = some .undefinedAccess ∧
    refusalOf (step (facing (.transaction (.read (-4) 4)) abDone)) = some .undefinedAccess ∧
    refusalOf (step (facing (.resetDuring (.read 0x20 4)) abDone)) = some .resetDuringTransaction := by decide
/-- R230. -/
theorem test_reset_event : engineOf (step (facing .reset abDone)) = some Engine.reset := by decide

/-! ### The assembler (R88, R89) -/

theorem test_parse_absorb_forms :
    parseLine ['A', 'b', 's', 'o', 'r', 'b', ' ', '\'', ';', '\'', ' ', ';', 'x'] = .ok (some (.absorb 0x3B)) ∧
    parseLine ['A', 'B', 'S', 'O', 'R', 'B', ' ', 'U', '+', '3', 'C', 'F', 'D'] = .ok (some (.absorb 0x3CFD)) ∧
    parseLine ['A', 'B', 'S', 'O', 'R', 'B', ' ', '0', 'x', '1', '0'] = .ok (some (.absorb 16)) ∧
    parseLine ['A', 'B', 'S', 'O', 'R', 'B', ' ', '1', '0'] = .ok (some (.absorb 10)) := by decide
theorem test_parse_other_lines :
    parseLine [' ', ' ', 'n', 'o', 'p', ';'] = .ok (some .nop) ∧
    parseLine [' ', ';', ' ', 'n', 'o', 'p'] = .ok none ∧
    parseLine ['.', 'w', 'o', 'r', 'd', ' ', '0', 'x', 'F', 'f'] = .ok (some (.word 255)) ∧
    parseLine ['W', 'R', ' ', 'S', 'E', 'G', '0', ',', ' ', '1'] = .ok (some (.wr (.seg 0) 1)) ∧
    parseLine ['R', 'D', ' ', 'H', 'E', 'X', '7'] = .ok (some (.rd (.hex 7))) ∧
    parseLine ['H', 'A', 'S', 'H', ' ', '"', 'a', ';', '"'] = .ok (some (.hash [0x61, 0x3B])) ∧
    parseLine ['H', 'A', 'L', 'T'] = .error .unknownMnemonic := by decide
/-- R88's refusal of `ABSORB n` with n > 0x10FFFF, the refusal of `WR CMD` (log entry 17), and `HASH ""`. -/
theorem test_assemble :
    assembleLine (.absorb 0x110000) = .error .codePointRange ∧
    assembleLine (.wr .cmd 0x04000000) = .error .cmdWrite ∧
    assembleLine (.hash []) = .ok [commandEvent 0x01000000#32, commandEvent 0x03000000#32] := by decide

/-! ### Values that meet the statements' hypotheses -/

theorem witness_EncodeOfDecode : decode 0x0210FFFF#32 = .ok (.absorb 0x10FFFF#21) := by decide
theorem witness_CommandWriteRuns : decode 0x03000000#32 = .ok .finalize ∧ decode 0x02000000#32 = .ok (.absorb 0#21) := by
  decide
theorem witness_NopReserved : (0x00000001#32).toNat / 2 ^ 24 = 0 ∧ (0x00000001#32).toNat % 2 ^ 24 ≠ 0 := by decide
theorem witness_InitReserved : (0x01000001#32).toNat / 2 ^ 24 = 1 ∧ (0x01000001#32).toNat % 2 ^ 24 ≠ 0 := by decide
/-- AbsorbResult, AbsorbLosesNoBit, and AbsorbFrame's first case, at the largest operand. -/
theorem witness_AbsorbPerformed :
    abAbsorbed.err = false ∧ abAbsorbed.done = false ∧ (0x10FFFF#21).toNat ≤ 0x10FFFF := by decide
theorem witness_AbsorbFrame :
    ∃ t, exec (.absorb 0x10FFFF#21) (only abAbsorbed) = .next t := ⟨_, rfl⟩
/-- AbsorbFrame's other cases: poisoned, DONE, and the smallest operand out of range. -/
theorem witness_AbsorbFrame_unperformed :
    (∃ t, exec (.absorb 0#21) (only poisonedA) = .next t) ∧ poisonedA.err = true ∧
    (∃ t, exec (.absorb 0#21) (only abDone) = .next t) ∧ abDone.done = true ∧
    (∃ t, exec (.absorb 0x110000#21) (only abAbsorbed) = .next t) ∧ 0x10FFFF < (0x110000#21).toNat :=
  ⟨⟨_, rfl⟩, by decide, ⟨_, rfl⟩, by decide, ⟨_, rfl⟩, by decide⟩
theorem witness_Mix : 0xFFFFFFFE ≤ 0xFFFFFFFE ∧ 7 ≤ 7 ∧ 0x10FFFF ≤ 0x10FFFF := by decide
theorem witness_PostXor : 0xFFFF0000 < 2 ^ 32 - 1 ∧ 0xFFFEFFFF < 2 ^ 32 - 1 := by decide
theorem witness_CarryFold : 2 ^ 64 - 1 < 2 ^ 64 ∧ 1 ≤ 1 ∧ 2 ^ 37 - 1 < 2 ^ 37 := by decide
/-- FinalizeResult and FinalizeLosesNoBit, with and without a message. -/
theorem witness_FinalizePerformed :
    abAbsorbed.err = false ∧ abAbsorbed.done = false ∧ Engine.reset.err = false ∧ Engine.reset.done = false := by decide
theorem witness_FinalizeFrame :
    (∃ t, exec .finalize (only abAbsorbed) = .next t) ∧ abAbsorbed.done = false ∧
    (∃ t, exec .finalize (only poisonedA) = .next t) ∧ poisonedA.err = true ∧
    (∃ t, exec .finalize (only abDone) = .next t) ∧ abDone.done = true :=
  ⟨⟨_, rfl⟩, by decide, ⟨_, rfl⟩, by decide, ⟨_, rfl⟩, by decide⟩
theorem witness_Rotator : (0xFFFFFFFE#32 : Word) ≠ 0xFFFFFFFF#32 ∧ 31 < 32 := by decide
/-- AvalancheNeverAllOnes and AvalancheIsNineSubSteps. -/
theorem witness_AvalancheDomain : 0xFFFFFFFE ≤ 0xFFFFFFFE := by decide
theorem witness_Complement : 0 < 0xFFFFFFFE ∧ 0xFFFFFFFE < 0xFFFFFFFF ∧ 0 < 1 ∧ 1 < 0xFFFFFFFF := by decide
theorem witness_SegmentFacts : 0xFFFFFFFF ≤ 0xFFFFFFFF ∧ 3 ≤ 3 ∧ 0xFFFFFFFE < 2 ^ 32 - 1 := by decide
theorem witness_Multipliers :
    (Const.kMix1 = Const.kMix1 ∨ Const.kMix1 = Const.kMix2) ∧ (Const.kMix2 = Const.kMix1 ∨ Const.kMix2 = Const.kMix2) ∧
    0xFFFFFFFE < 2 ^ 32 - 1 ∧ 0xFFFFFFFE * Const.kMix1 % (2 ^ 32 - 1) = 0xFFFFFFFE * Const.kMix1 % (2 ^ 32 - 1) := by
  decide
theorem witness_ReservedOpcode : 0x04 ≤ (0x04000000#32).toNat / 2 ^ 24 ∧ 0x04 ≤ (0xFFFFFFFF#32).toNat / 2 ^ 24 := by decide
theorem witness_ReservedBits :
    ((0x02200000#32).toNat / 2 ^ 24 = 2 ∧ (0x02200000#32).toNat / 2 ^ 21 % 8 ≠ 0) ∧
    ((0x03000001#32).toNat / 2 ^ 24 = 3 ∧ (0x03000001#32).toNat % 2 ^ 24 ≠ 0) := by decide
theorem witness_PhaseErrors :
    abDone.err = false ∧ abDone.done = true ∧ Engine.reset.err = false ∧ Engine.reset.done = false ∧
    0x10FFFF < (0x110000#21).toNat := by decide
theorem witness_Raise : Engine.reset.err = false ∧ poisonedA.err = true := by decide
theorem witness_Erroring :
    (∃ t, step (facing (commandEvent 0x04000000#32) Engine.reset) = .next t ∧ t.engine.err = true) ∧
    Engine.reset.err = false ∧ decode 0x04000000#32 = .error .reservedOpcode :=
  ⟨⟨_, rfl, by decide⟩, by decide, by decide⟩
theorem witness_Poisoned : poisonedA.err = true ∧ decode 0x01000001#32 = .error .reservedBits := by decide
/-- OnlyRestartLeavesTheErrorState: a step that keeps the error and one that leaves it. -/
theorem witness_ErrorState :
    (∃ t, step (facing (commandEvent 0x03000000#32) poisonedA) = .next t ∧ t.engine.err = true) ∧
    (∃ t, step (facing .reset poisonedA) = .next t ∧ t.engine.err = false) ∧ poisonedA.err = true ∧
    HostEvent.restarts .reset ∧ HostEvent.restarts (commandEvent 0x01000000#32) :=
  ⟨⟨_, rfl, by decide⟩, ⟨_, rfl, by decide⟩, by decide, .inl rfl, .inr rfl⟩
/-- DigestStaysLatchedUntilRestart, both cases. -/
theorem witness_Latched :
    (∃ t, step (facing (commandEvent 0x03000000#32) abDone) = .next t ∧ t.engine.done = true) ∧
    (∃ t, step (facing (commandEvent 0x01000000#32) abDone) = .next t ∧ t.engine.done = false) ∧ abDone.done = true :=
  ⟨⟨_, rfl, by decide⟩, ⟨_, rfl, by decide⟩, by decide⟩
theorem witness_ReadOnlyWrites :
    (0x04 : Int) % 4 = 0 ∧ (0x04 : Int) ≤ 0x04 ∧ (0x3C : Int) % 4 = 0 ∧ (0x3C : Int) ≤ 0x3C := by decide
theorem witness_OtherAccesses :
    ¬ (4 = 4 ∧ (0x3E : Int) % 4 = 0 ∧ (0x00 : Int) ≤ 0x3E ∧ (0x3E : Int) ≤ 0x3C) ∧
    ¬ (2 = 4 ∧ (0x00 : Int) % 4 = 0 ∧ (0x00 : Int) ≤ 0x00 ∧ (0x00 : Int) ≤ 0x3C) ∧
    (4 = 4 ∧ (0x3C : Int) % 4 = 0 ∧ (0x00 : Int) ≤ 0x3C ∧ (0x3C : Int) ≤ 0x3C) := by decide
theorem witness_Readable :
    readReg .status abDone = readReg .status abDone ∧ readReg .acc abDone = readReg .acc abDone ∧
    ∀ i, readReg (.seg i) abDone = readReg (.seg i) abDone := ⟨rfl, rfl, fun _ => rfl⟩
/-- OnlyCommandsAndResetChangeState. -/
theorem witness_StateChanges :
    (∃ t, step (facing (commandEvent 0x01000000#32) abAbsorbed) = .next t ∧ t.engine ≠ abAbsorbed) ∧
    (∃ t, step (facing .reset abAbsorbed) = .next t ∧ t.engine ≠ abAbsorbed) :=
  ⟨⟨_, rfl, by decide⟩, ⟨_, rfl, by decide⟩⟩
theorem witness_DefinedEvents :
    HostEvent.defined (.transaction (.read 0x3C 4)) = true ∧ HostEvent.defined .reset = true ∧
    HostEvent.defined (.transaction (.write 0x40 4 0#32)) = false ∧
    HostEvent.defined (.resetDuring (.read 0x00 4)) = false := by decide
theorem witness_HexChars : (9#4).toNat < 10 ∧ 10 ≤ (10#4).toNat := by decide
theorem witness_SegmentGroups : (abDone.seg 0).toNat ≤ 0xFFFFFFFE ∧ format8 0x12345678#32 = format8 0x12345678#32 := by
  decide
/-- StepKeepsInvariant, StepKeepsRegistersInRange and NoDigestBeforeFinalize, in both phases. -/
theorem witness_Invariant :
    abAbsorbed.Inv ∧ abAbsorbed.InRange ∧ (∃ t, step (facing (commandEvent 0x03000000#32) abAbsorbed) = .next t) ∧
    abDone.Inv ∧ abDone.InRange :=
  ⟨⟨by decide, by decide, by decide, by decide, by decide, by decide⟩, ⟨by decide, by decide⟩, ⟨_, rfl⟩,
   ⟨by decide, by decide, by decide, by decide, by decide, by decide⟩, ⟨by decide, by decide⟩⟩
/-- AbsorbExtendsTheMessage and StreamedMessageGivesItsDigest. -/
theorem witness_Messages : ∀ cp ∈ [0x61#21, 0x10FFFF#21], cp.toNat ≤ 0x10FFFF := by simp
theorem witness_Instances :
    ∃ sys', stepInstance [facing .reset abDone, only abDone] 0 = .next sys' := ⟨_, rfl⟩
theorem witness_Interleaving :
    Interleaves [[HostEvent.reset], [commandEvent 0x03000000#32]] [commandEvent 0x03000000#32, HostEvent.reset] :=
  .pick _ ⟨1, by decide⟩ _ [] _ rfl (.pick _ ⟨0, by decide⟩ _ [] _ rfl (.done [[], []] (by decide)))
theorem witness_AssemblerRange : 0x10FFFF ≤ 0x10FFFF ∧ 0x10FFFF < 0x110000 := by decide
theorem witness_Hash : ∀ n ∈ [0, 0x10FFFF], n ≤ 0x10FFFF := by decide

end Sys2Proof.Machine.Tests
end

/-! SUPPORT. The command stream of a message (R232) computes the one-call digest (R2, R238): each command's effect on
the engine that has absorbed a prefix, chained along the stream by induction over the code points still to come. -/

namespace Sys2Proof.Machine

/-! ### One command of the stream -/

/-- The decoder reads every command back from its own word (R82). -/
theorem decode_encode (i : Instr) : decode (encode i) = .ok i := by
  cases i with
  | nop => simp [encode, decode, opNop, opAbsorb, opFinalize]
  | init => simp [encode, decode, opNop, opInit, opAbsorb, opFinalize]
  | absorb cp => simp [encode, decode, opNop, opInit, opAbsorb, opFinalize]
  | finalize => simp [encode, decode, opNop, opInit, opAbsorb, opFinalize]

/-- Writing a command's own word to CMD performs that command (R85). -/
theorem step_encoded (i : Instr) (e : Engine) (rest : List HostEvent) (rs : List Response) :
    step ⟨e, commandEvent (encode i) :: rest, rs⟩ = exec i ⟨e, rest, rs⟩ := by
  simp [performCommand, decode_encode]

/-- INIT leaves the reset engine whatever the state was, poisoned included (R101). -/
theorem exec_init (e : Engine) (p : List HostEvent) (rs : List Response) :
    exec .init ⟨e, p, rs⟩ = .next ⟨Engine.reset, p, rs⟩ := rfl

/-- ABSORB in the ABSORB phase with no error and an operand in range is performed (R85, R120). -/
theorem exec_absorb_performed {e : Engine} {cp : BitVec 21} (herr : e.err = false) (hdone : e.done = false)
    (hcp : cp.toNat ≤ 0x10FFFF) (p : List HostEvent) (rs : List Response) :
    exec (.absorb cp) ⟨e, p, rs⟩ = .next ⟨e.absorb cp.toNat, p, rs⟩ := by
  have hrange : codePointInRange cp = true := decide_eq_true hcp
  simp [exec, execAbsorb, herr, hdone, hrange, State.withEngine, codePoint]

/-- FINALIZE in the ABSORB phase with no error is performed (R85, R140). -/
theorem exec_finalize_performed {e : Engine} (herr : e.err = false) (hdone : e.done = false) (p : List HostEvent)
    (rs : List Response) : exec .finalize ⟨e, p, rs⟩ = .next ⟨e.finalize, p, rs⟩ := by
  simp [exec, execFinalize, herr, hdone, State.withEngine]

/-! ### The engine that has absorbed a prefix -/

@[simp] theorem Engine.absorbed_nil : Engine.absorbed [] = Engine.reset := rfl
@[simp] theorem Engine.absorbed_acc (cps : List Nat) :
    (Engine.absorbed cps).acc = BitVec.ofNat 32 (mixFrom 0 0 cps) := rfl
@[simp] theorem Engine.absorbed_pos (cps : List Nat) :
    (Engine.absorbed cps).pos = BitVec.ofNat 3 (cps.length % Const.cycle) := rfl
@[simp] theorem Engine.absorbed_err (cps : List Nat) : (Engine.absorbed cps).err = false := rfl
@[simp] theorem Engine.absorbed_done (cps : List Nat) : (Engine.absorbed cps).done = false := rfl
@[simp] theorem Engine.absorbed_seen (cps : List Nat) : (Engine.absorbed cps).seen = !cps.isEmpty := rfl

/-- ACC holds the whole Step 1 value: the narrowing to 32 bits loses nothing (R23). -/
@[simp] theorem Engine.absorbed_accNat (cps : List Nat) : (Engine.absorbed cps).accNat = mixFrom 0 0 cps :=
  toNat_ofNat_of_lt_M (mixFrom_lt cps 0 0 (by decide))

/-- POS counts the absorbed code points modulo the cycle (R24). -/
@[simp] theorem Engine.absorbed_posNat (cps : List Nat) :
    (Engine.absorbed cps).posNat = cps.length % Const.cycle := by
  simp [Engine.posNat, Const.cycle]

/-- R124: absorbing one code point more extends the absorbed sequence by it. -/
theorem Engine.absorb_absorbed (cps : List Nat) (v : Nat) :
    (Engine.absorbed cps).absorb v = Engine.absorbed (cps ++ [v]) := by
  apply Engine.eq_of_fields
  case hacc => simp [mixFrom_append_one]
  case hpos => simp [Const.cycle]
  case hseen => simp
  case hdone => rfl
  case herr => rfl
  case hcode => rfl
  case hseg => exact fun i => Engine.absorb_seg _ v i

/-- Step 0: SEEN tells the empty message from every other, so the placeholder stands in for it alone (R142). -/
theorem Engine.messageAcc_absorbed (cps : List Nat) : (Engine.absorbed cps).messageAcc = streamAcc cps := by
  cases cps with
  | nil => rfl
  | cons v vs => simp [Engine.messageAcc, streamAcc, stepZero]

/-- Steps 2 and 3 on the engine that has absorbed a message give the one-call function's registers (R140, R148). -/
theorem Engine.finalize_absorbed (cps : List Nat) : (Engine.absorbed cps).finalize = Engine.finalized cps := by
  simp only [Engine.finalize, Engine.messageAcc_absorbed]
  rfl

/-! ### The stream -/

/-- The ABSORBs of a message, in order (R232). -/
def absorbEvents (cps : List (BitVec 21)) : List HostEvent :=
  cps.map (fun cp => commandEvent (encode (.absorb cp)))

theorem absorbEvents_cons (cp : BitVec 21) (cps : List (BitVec 21)) :
    absorbEvents (cp :: cps) = commandEvent (encode (.absorb cp)) :: absorbEvents cps := rfl

/-- A message's events with what follows them: INIT, the ABSORBs, FINALIZE, and the rest (R232). -/
theorem messageEvents_append (cps : List (BitVec 21)) (rest : List HostEvent) :
    messageEvents cps ++ rest =
      commandEvent (encode .init) :: (absorbEvents cps ++ commandEvent (encode .finalize) :: rest) := by
  simp [messageEvents, absorbEvents]

section
variable (rest : List HostEvent) (rs : List Response)

/-- The step of INIT, from any engine (R101). -/
theorem step_init (e : Engine) :
    step ⟨e, commandEvent (encode .init) :: rest, rs⟩ = .next ⟨Engine.absorbed [], rest, rs⟩ := by
  rw [step_encoded, exec_init, Engine.absorbed_nil]

/-- The step of one ABSORB of a message (R124). -/
theorem step_absorb_absorbed (prior : List Nat) {cp : BitVec 21} (hcp : cp.toNat ≤ 0x10FFFF) :
    step ⟨Engine.absorbed prior, commandEvent (encode (.absorb cp)) :: rest, rs⟩ =
      .next ⟨Engine.absorbed (prior ++ [cp.toNat]), rest, rs⟩ := by
  rw [step_encoded, exec_absorb_performed rfl rfl hcp, Engine.absorb_absorbed]

/-- The step of the FINALIZE that ends a message (R140). -/
theorem step_finalize_absorbed (cps : List Nat) :
    step ⟨Engine.absorbed cps, commandEvent (encode .finalize) :: rest, rs⟩ =
      .next ⟨Engine.finalized cps, rest, rs⟩ := by
  rw [step_encoded, exec_finalize_performed rfl rfl, Engine.finalize_absorbed]

end

theorem stepN_of_step {s t : State} (n : Nat) (h : step s = .next t) : stepN (n + 1) s = stepN n t := by
  simp [stepN, h]

/-- The ABSORBs of `cps`, after those of `prior`, take one step each and extend what was absorbed by `cps` (R124). -/
theorem stepN_absorbs (cps : List (BitVec 21)) (prior : List Nat) (rest : List HostEvent) (rs : List Response)
    (hcps : ∀ cp ∈ cps, cp.toNat ≤ 0x10FFFF) :
    stepN cps.length ⟨Engine.absorbed prior, absorbEvents cps ++ rest, rs⟩ =
      .next ⟨Engine.absorbed (prior ++ cps.map BitVec.toNat), rest, rs⟩ := by
  induction cps generalizing prior with
  | nil => simp [stepN, absorbEvents]
  | cons cp cps ih =>
    obtain ⟨hcp, htail⟩ := List.forall_mem_cons.mp hcps
    rw [List.length_cons, absorbEvents_cons, List.cons_append,
      stepN_of_step _ (step_absorb_absorbed _ _ _ hcp), ih _ htail]
    simp

/-- A finished message holds its digest as the result (R238). -/
theorem digestResult_finalized (cps : List Nat) : digestResult (Engine.finalized cps) = some (digestOf cps) := by
  simp [digestResult]

/-- Settles O50: INIT forgets the state before it, the ABSORBs absorb the message by induction over it, and FINALIZE
computes Steps 0, 2 and 3 on what they left. -/
theorem streamedMessageGivesItsDigest : Obligations.StreamedMessageGivesItsDigest := by
  intro e cps rest rs hcps
  refine ⟨?_, digestResult_finalized _⟩
  rw [messageEvents_append]
  calc stepN (cps.length + 2)
        ⟨e, commandEvent (encode .init) :: (absorbEvents cps ++ commandEvent (encode .finalize) :: rest), rs⟩
      = stepN (cps.length + 1)
          ⟨Engine.absorbed [], absorbEvents cps ++ commandEvent (encode .finalize) :: rest, rs⟩ :=
        stepN_of_step _ (step_init _ rs e)
    _ = stepN 1 ⟨Engine.absorbed (cps.map BitVec.toNat), commandEvent (encode .finalize) :: rest, rs⟩ :=
        stepN_add cps.length 1 (stepN_absorbs cps [] _ rs hcps)
    _ = .next ⟨Engine.finalized (cps.map BitVec.toNat), rest, rs⟩ :=
        stepN_of_step 0 (step_finalize_absorbed rest rs _)

end Sys2Proof.Machine

/-! SUPPORT. Step 2 never ends in 0xFFFFFFFF (R146): the rotator form of R145 computes AVALANCHE on words, and there the
backward search of 95_test_vectors.md §2.3 is short, since a sub-step's preimages are known up to complement and an image of
a left-shift sub-step has even parity. -/

namespace Sys2Proof.Machine

/-! ### The rotator form computes Step 2 (R145) -/

/-- A rotation as arithmetic: the low part moves up by k, the high part comes down. -/
theorem toNat_rotateLeft_eq_add {k : Nat} (hk : k < 32) (x : Word) :
    (x.rotateLeft k).toNat = x.toNat % 2 ^ (32 - k) * 2 ^ k + x.toNat / 2 ^ (32 - k) := by
  have hsplit : 2 ^ (32 - k) * 2 ^ k = 2 ^ 32 := by rw [← pow_add, Nat.sub_add_cancel hk.le]
  have hhigh : x.toNat / 2 ^ (32 - k) < 2 ^ k := Nat.div_lt_of_lt_mul (hsplit ▸ x.isLt)
  rw [BitVec.toNat_rotateLeft, Nat.mod_eq_of_lt hk, Nat.shiftLeft_eq, ← hsplit, Nat.mul_mod_mul_right,
    Nat.shiftRight_eq_div_pow, ← Nat.shiftLeft_eq, Nat.shiftLeft_add_eq_or_of_lt hhigh]

/-- Modulo M = 2^32 − 1 a left shift is a rotation. -/
theorem shiftLeft_mod_M_eq_rotateLeft_mod {k : Nat} (hk : k < 32) (x : Word) :
    (x.toNat <<< k) % Const.M = (x.rotateLeft k).toNat % Const.M := by
  have hsplit : 2 ^ (32 - k) * 2 ^ k = Const.M + 1 := by rw [← pow_add, Nat.sub_add_cancel hk.le]; rfl
  have hvalue : x.toNat <<< k = Const.M * (x.toNat / 2 ^ (32 - k)) + (x.rotateLeft k).toNat := by
    calc x.toNat <<< k
        = (2 ^ (32 - k) * (x.toNat / 2 ^ (32 - k)) + x.toNat % 2 ^ (32 - k)) * 2 ^ k := by
          rw [Nat.div_add_mod, Nat.shiftLeft_eq]
      _ = 2 ^ (32 - k) * 2 ^ k * (x.toNat / 2 ^ (32 - k)) + x.toNat % 2 ^ (32 - k) * 2 ^ k := by ring
      _ = Const.M * (x.toNat / 2 ^ (32 - k)) + (x.rotateLeft k).toNat := by
          rw [hsplit, toNat_rotateLeft_eq_add hk]; ring
  rw [hvalue, Nat.mul_add_mod]

/-- Only the all-ones word rotates to the all-ones word. -/
theorem toNat_rotateLeft_lt_M {k : Nat} (hk : k < 32) {x : Word} (hx : x ≠ 0xFFFFFFFF#32) :
    (x.rotateLeft k).toNat < Const.M := by
  have hle : (x.rotateLeft k).toNat ≤ Const.M := Nat.le_of_lt_succ (x.rotateLeft k).isLt
  refine lt_of_le_of_ne hle fun hrot => ?_
  have hshift : Const.M ∣ x.toNat * 2 ^ k := by
    rw [← Nat.shiftLeft_eq, Nat.dvd_iff_mod_eq_zero, shiftLeft_mod_M_eq_rotateLeft_mod hk, hrot, Nat.mod_self]
  have hcoprime : Nat.Coprime Const.M (2 ^ k) := Nat.Coprime.pow_right k (by decide)
  obtain ⟨q, hq⟩ := hcoprime.dvd_of_dvd_mul_right hshift
  have hlt := x.isLt
  simp only [Const.M] at hq
  have hq01 : q = 0 ∨ q = 1 := by omega
  rcases hq01 with rfl | rfl
  · have hzero : x = 0#32 := BitVec.eq_of_toNat_eq hq
    simp [hzero, BitVec.toNat_rotateLeft, Const.M] at hrot
  · exact hx (BitVec.eq_of_toNat_eq hq)

/-- R145: the reduced left shift of a 32-bit value is the rotator with its all-ones detector. -/
theorem shiftLeft_mod_M_eq_rotateOrZero {k : Nat} (hk : k < 32) (x : Word) :
    (x.toNat <<< k) % Const.M = (rotateOrZero k x).toNat := by
  unfold rotateOrZero
  split
  case isTrue hx =>
    subst hx
    rw [Nat.shiftLeft_eq]
    exact Nat.mul_mod_right _ _
  case isFalse hx =>
    rw [shiftLeft_mod_M_eq_rotateLeft_mod hk, Nat.mod_eq_of_lt (toNat_rotateLeft_lt_M hk hx)]

/-- The sub-steps of Step 2 on the 32-bit datapath (R145). -/
def hwL13 (x : Word) : Word := x ^^^ rotateOrZero Const.shiftL13 x
def hwR7 (x : Word) : Word := x ^^^ (x >>> Const.shiftR7)
def hwL17 (x : Word) : Word := x ^^^ rotateOrZero Const.shiftL17 x

theorem hwRound_eq (x : Word) : hwRound x = hwL17 (hwR7 (hwL13 x)) := rfl

theorem toNat_xor_rotateOrZero {k : Nat} (hk : k < 32) (x : Word) :
    (x ^^^ rotateOrZero k x).toNat = x.toNat ^^^ ((x.toNat <<< k) % Const.M) := by
  rw [BitVec.toNat_xor, shiftLeft_mod_M_eq_rotateOrZero hk]

theorem toNat_hwL13 (x : Word) : (hwL13 x).toNat = subL13 x.toNat := toNat_xor_rotateOrZero (by decide) x

theorem toNat_hwL17 (x : Word) : (hwL17 x).toNat = subL17 x.toNat := toNat_xor_rotateOrZero (by decide) x

/-- The right shift needs no reduction (R145). -/
theorem shiftRight_seven_mod_M (x : Word) : (x.toNat >>> Const.shiftR7) % Const.M = (x >>> Const.shiftR7).toNat := by
  have hlt : x.toNat >>> Const.shiftR7 < Const.M := by
    rw [Nat.shiftRight_eq_div_pow]
    exact Nat.div_lt_of_lt_mul (lt_trans x.isLt (by decide))
  rw [Nat.mod_eq_of_lt hlt, BitVec.toNat_ushiftRight]

theorem toNat_hwR7 (x : Word) : (hwR7 x).toNat = subR7 x.toNat := by
  rw [hwR7, BitVec.toNat_xor, ← shiftRight_seven_mod_M]; rfl

theorem toNat_hwRound (x : Word) : (hwRound x).toNat = avalancheRound x.toNat := by
  rw [hwRound_eq, toNat_hwL17, toNat_hwR7, toNat_hwL13]; rfl

/-- R145: "a 32-bit datapath holds Step 2 exactly". -/
theorem toNat_hwAvalanche (x : Word) : (hwAvalanche x).toNat = avalanche x.toNat := by
  rw [hwAvalanche, toNat_hwRound, toNat_hwRound, toNat_hwRound]; rfl

/-! ### Preimages of one round -/

/-- An XOR with the rotator's output identifies only a word and its complement, unless the image is the all-ones word. -/
theorem eq_or_complement_of_xor_rotateOrZero_eq {k : Nat} {x b : Word}
    (hpre : x ^^^ rotateOrZero k x = b ^^^ b.rotateLeft k →
      x = b ∨ x = b ^^^ 0xFFFFFFFF#32 ∨ (x = 0xFFFFFFFF#32 ∧ b ^^^ b.rotateLeft k = 0xFFFFFFFF#32))
    (hb : b ^^^ rotateOrZero k b ≠ 0xFFFFFFFF#32) (h : x ^^^ rotateOrZero k x = b ^^^ rotateOrZero k b) :
    x = b ∨ x = b ^^^ 0xFFFFFFFF#32 := by
  have hb1 : b ≠ 0xFFFFFFFF#32 := by
    rintro rfl
    exact hb (by simp [rotateOrZero])
  have hrot : rotateOrZero k b = b.rotateLeft k := if_neg hb1
  rw [hrot] at hb h
  rcases hpre h with hx | hx | ⟨-, hall⟩
  · exact .inl hx
  · exact .inr hx
  · exact absurd hall hb

theorem eq_or_complement_of_hwL13_eq {x b : Word} (hb : hwL13 b ≠ 0xFFFFFFFF#32) (h : hwL13 x = hwL13 b) :
    x = b ∨ x = b ^^^ 0xFFFFFFFF#32 :=
  eq_or_complement_of_xor_rotateOrZero_eq (rotateOrZero_13_preimage b) hb h

theorem eq_or_complement_of_hwL17_eq {x b : Word} (hb : hwL17 b ≠ 0xFFFFFFFF#32) (h : hwL17 x = hwL17 b) :
    x = b ∨ x = b ^^^ 0xFFFFFFFF#32 :=
  eq_or_complement_of_xor_rotateOrZero_eq (rotateOrZero_17_preimage b) hb h

/-- A round's result and two words that R7 maps to its two L17 preimages fix what L13 gave. -/
theorem hwL13_of_hwRound_eq {x d d' : Word} (hne : hwL17 (hwR7 d) ≠ 0xFFFFFFFF#32)
    (hd' : hwR7 d' = hwR7 d ^^^ 0xFFFFFFFF#32) (h : hwRound x = hwL17 (hwR7 d)) : hwL13 x = d ∨ hwL13 x = d' := by
  rcases eq_or_complement_of_hwL17_eq hne h with hx | hx
  · exact .inl (xor_shiftRight_seven_injective hx)
  · exact .inr (xor_shiftRight_seven_injective (hx.trans hd'.symm))

/-- The four inputs of a round with one result: two words, found from the two L17 preimages, and their complements. -/
theorem preimages_of_hwRound {x b b' : Word} (hne : hwRound b ≠ 0xFFFFFFFF#32) (hb : hwL13 b ≠ 0xFFFFFFFF#32)
    (hb' : hwL13 b' ≠ 0xFFFFFFFF#32) (hcompl : hwR7 (hwL13 b') = hwR7 (hwL13 b) ^^^ 0xFFFFFFFF#32)
    (h : hwRound x = hwRound b) :
    (x = b ∨ x = b ^^^ 0xFFFFFFFF#32) ∨ (x = b' ∨ x = b' ^^^ 0xFFFFFFFF#32) :=
  (hwL13_of_hwRound_eq hne hcompl h).imp (eq_or_complement_of_hwL13_eq hb) (eq_or_complement_of_hwL13_eq hb')

/-- A round's result is even, so no word of odd parity is one. -/
theorem hwRound_ne_of_parity {y : Word} (hy : parity y ≠ 0) (x : Word) : hwRound x ≠ y :=
  fun h => hy (h ▸ parity_rotateOrZero_17 _)

/-- What L13 gives is even too, so a result whose two candidates after L13 are odd is none of a round. -/
theorem hwRound_ne_of_parity_hwL13 {d d' : Word} (hne : hwL17 (hwR7 d) ≠ 0xFFFFFFFF#32)
    (hd' : hwR7 d' = hwR7 d ^^^ 0xFFFFFFFF#32) (hodd : parity d ≠ 0) (hodd' : parity d' ≠ 0) (x : Word) :
    hwRound x ≠ hwL17 (hwR7 d) := by
  intro h
  rcases hwL13_of_hwRound_eq hne hd' h with hx | hx
  · exact hodd (hx ▸ parity_rotateOrZero_13 x)
  · exact hodd' (hx ▸ parity_rotateOrZero_13 x)

/-! ### The backward search of R146 -/

/-- The third round: only six words lead to the all-ones word, by way of the three L17 preimages of it. -/
theorem preimages_of_allOnes {z : Word} (h : hwRound z = 0xFFFFFFFF#32) :
    (z = 0x59986336#32 ∨ z = 0xA6679CC9#32) ∨ (z = 0x4CCF3993#32 ∨ z = 0xB330C66C#32) ∨
      (z = 0x15575AA5#32 ∨ z = 0xEAA8A55A#32) := by
  have hL13 : ∀ {b : Word}, hwL13 b ≠ 0xFFFFFFFF#32 → hwR7 (hwL13 z) = hwR7 (hwL13 b) →
      z = b ∨ z = b ^^^ 0xFFFFFFFF#32 := fun hb hz =>
    eq_or_complement_of_hwL13_eq hb (xor_shiftRight_seven_injective hz)
  have hL17 : hwL17 (hwR7 (hwL13 z)) = 0x55555555#32 ^^^ (0x55555555#32).rotateLeft 17 := h.trans (by decide)
  rcases rotateOrZero_17_preimage 0x55555555#32 hL17 with hz | hz | ⟨hz, -⟩
  · exact .inl (hL13 (b := 0x59986336#32) (by decide) (hz.trans (by decide)))
  · exact .inr (.inl (hL13 (b := 0x4CCF3993#32) (by decide) (hz.trans (by decide))))
  · exact .inr (.inr (hL13 (b := 0x15575AA5#32) (by decide) (hz.trans (by decide))))

/-- Of those six only two are even, and so a result of the second round. -/
theorem secondRound_of_allOnes {y : Word} (h : hwRound (hwRound y) = 0xFFFFFFFF#32) :
    hwRound y = 0x15575AA5#32 ∨ hwRound y = 0xEAA8A55A#32 := by
  rcases preimages_of_allOnes h with (hy | hy) | (hy | hy) | hy
  · exact absurd hy (hwRound_ne_of_parity (by decide) y)
  · exact absurd hy (hwRound_ne_of_parity (by decide) y)
  · exact absurd hy (hwRound_ne_of_parity (by decide) y)
  · exact absurd hy (hwRound_ne_of_parity (by decide) y)
  · exact hy

/-- The second round: no result of a first round leads to 0x15575AA5. -/
theorem hwRound_hwRound_ne_15575AA5 (x : Word) : hwRound (hwRound x) ≠ 0x15575AA5#32 := by
  intro h
  have hpre := preimages_of_hwRound (b := 0x64188D02#32) (b' := 0x714FD7A7#32) (by decide) (by decide) (by decide)
    (by decide) (h.trans (by decide))
  rcases hpre with (hx | hx) | (hx | hx)
  · exact hwRound_ne_of_parity_hwL13 (d := 0x4C347CA3#32) (d' := 0xB23784AC#32) (by decide) (by decide) (by decide)
      (by decide) x (hx.trans (by decide))
  · exact hwRound_ne_of_parity_hwL13 (d := 0x19CAD4A6#32) (d' := 0xE7C92CA9#32) (by decide) (by decide) (by decide)
      (by decide) x (hx.trans (by decide))
  · exact hwRound_ne_of_parity_hwL13 (d := 0x398CBD22#32) (d' := 0xC78F452D#32) (by decide) (by decide) (by decide)
      (by decide) x (hx.trans (by decide))
  · exact hwRound_ne_of_parity_hwL13 (d := 0x6C721527#32) (d' := 0x9271ED28#32) (by decide) (by decide) (by decide)
      (by decide) x (hx.trans (by decide))

/-- The second round: the four words that lead to 0xEAA8A55A are odd. -/
theorem hwRound_hwRound_ne_EAA8A55A (x : Word) : hwRound (hwRound x) ≠ 0xEAA8A55A#32 := by
  intro h
  have hpre := preimages_of_hwRound (b := 0x3D80EE34#32) (b' := 0x28D7B491#32) (by decide) (by decide) (by decide)
    (by decide) (h.trans (by decide))
  rcases hpre with (hx | hx) | (hx | hx)
  · exact hwRound_ne_of_parity (by decide) x hx
  · exact hwRound_ne_of_parity (by decide) x hx
  · exact hwRound_ne_of_parity (by decide) x hx
  · exact hwRound_ne_of_parity (by decide) x hx

/-- R146: the all-ones word is no result of Step 2, whatever 32-bit value it starts from. -/
theorem hwAvalanche_ne_allOnes (x : Word) : hwAvalanche x ≠ 0xFFFFFFFF#32 := by
  intro h
  rcases secondRound_of_allOnes h with hx | hx
  · exact hwRound_hwRound_ne_15575AA5 x hx
  · exact hwRound_hwRound_ne_EAA8A55A x hx

/-- R146: Step 2 leaves every 32-bit value at most M − 1, although it does not reduce its result. -/
theorem avalanche_lt_M {a : Nat} (ha : a < 2 ^ 32) : avalanche a < Const.M := by
  have hword : (hwAvalanche (BitVec.ofNat 32 a)).toNat = avalanche a := by
    rw [toNat_hwAvalanche, toNat_ofNat_of_lt ha]
  refine lt_of_le_of_ne (Nat.le_of_lt_succ (avalanche_lt ha)) fun hall => ?_
  exact hwAvalanche_ne_allOnes _ (BitVec.eq_of_toNat_eq (hword.trans hall))

end Sys2Proof.Machine

/-! SUPPORT. What a step does to the engine, and the invariants it keeps (R34, R23, R29): one inversion lemma of the step at
the level of the engine, one induction principle from it, and each operation's effect on each invariant. -/

namespace Sys2Proof.Machine

/-! ### The engine after a step -/

/-- Only the INIT word decodes to INIT (R82). -/
theorem eq_of_decode_init {w : Word} (h : decode w = .ok .init) : w = 0x01000000#32 := by
  apply BitVec.eq_of_toNat_eq
  have hw := decode_cases w
  simp only [h] at hw
  simpa using hw

/-- What a step can do to the engine: nothing, a restart (R207), an error record (R202), or a performed ABSORB or FINALIZE,
which needs the ABSORB phase and no error (R85). -/
inductive EngineEffect (pending : List HostEvent) (e : Engine) : Engine → Prop where
  | kept : EngineEffect pending e e
  | restarted (ev : HostEvent) (rest : List HostEvent) (hpending : pending = ev :: rest) (hev : ev.restarts) :
      EngineEffect pending e Engine.reset
  | recorded (c : CmdError) : EngineEffect pending e (e.recordError c)
  | absorbed (v : Nat) (hdone : e.done = false) : EngineEffect pending e (e.absorb v)
  | finalized (hdone : e.done = false) : EngineEffect pending e e.finalize

theorem CommandEffect.engineEffect {w : Word} {rest : List HostEvent} {e e' : Engine} (h : CommandEffect w e e') :
    EngineEffect (commandEvent w :: rest) e e' := by
  cases h with
  | illegal d _ => exact .recorded _
  | nop _ => exact .kept
  | init hw => exact .restarted _ _ rfl (.inr (congrArg commandEvent (eq_of_decode_init hw)))
  | absorb cp _ _ hdone _ => exact .absorbed _ hdone
  | finalize _ _ hdone => exact .finalized hdone
  | refusedOperand c _ _ _ => exact .recorded c
  | poisoned _ _ _ => exact .kept

theorem step_engineEffect {s t : State} (h : step s = .next t) : EngineEffect s.pending s.engine t.engine := by
  rcases step_cases h with ⟨-, rfl⟩ | ⟨_, _, -, -, he, -⟩ | ⟨_, _, _, -, -, -, he, -⟩ | ⟨rest, hp, -, he, -⟩ |
    ⟨w, rest, hp, -, -, heffect⟩
  · exact .kept
  · exact he ▸ .kept
  · exact he ▸ .kept
  · exact he ▸ .restarted .reset rest hp (.inl rfl)
  · exact hp ▸ heffect.engineEffect

/-- A property of engines holds after a step if it holds after reset and each operation keeps it. -/
theorem step_keeps {P : Engine → Prop} (hreset : P Engine.reset) (hrecord : ∀ c e, P e → P (e.recordError c))
    (habsorb : ∀ v e, P e → P (e.absorb v)) (hfinalize : ∀ e, P e → P e.finalize) {s t : State}
    (hs : P s.engine) (h : step s = .next t) : P t.engine := by
  have heffect := step_engineEffect h
  generalize t.engine = e' at heffect ⊢
  cases heffect with
  | kept => exact hs
  | restarted _ _ _ _ => exact hreset
  | recorded c => exact hrecord c _ hs
  | absorbed v _ => exact habsorb v _ hs
  | finalized _ => exact hfinalize _ hs

/-! ### The invariants of R34 -/

theorem Engine.reset_inv : Engine.reset.Inv where
  emptyStart _ _ := ⟨rfl, rfl⟩
  noEarlySegments _ := ⟨rfl, rfl, rfl, rfl⟩
  errIffCode := by decide
  accReduced _ := by decide
  placeholderDone hdone _ := absurd hdone (by decide)
  codeLegal := by decide

/-- An error record touches only ERR and ERRCODE, and writes a code of R201. -/
theorem Engine.recordError_inv (c : CmdError) (e : Engine) (h : e.Inv) : (e.recordError c).Inv := by
  cases herr : e.err with
  | true => rwa [recordError_kept c herr]
  | false =>
    rw [recordError_fresh c herr]
    exact {
      emptyStart := h.emptyStart
      noEarlySegments := h.noEarlySegments
      errIffCode := by simp [code_ne_zero]
      accReduced := h.accReduced
      placeholderDone := h.placeholderDone
      codeLegal := (code_range c).2 }

/-- ACC after ABSORB is the whole Step 1 value: the narrowing to 32 bits loses nothing (R23). -/
theorem Engine.absorb_accNat (v : Nat) (e : Engine) : (e.absorb v).accNat = mix e.accNat e.posNat v :=
  toNat_ofNat_of_lt_M (mix_lt _ _ _)

theorem Engine.absorb_accNat_le (v : Nat) (e : Engine) : (e.absorb v).accNat ≤ Const.M - 1 := by
  rw [Engine.absorb_accNat]
  exact Nat.le_pred_of_lt (mix_lt _ _ _)

/-- ABSORB sets SEEN, so (a) and (e) say nothing of its result; its ACC is reduced (d). -/
theorem Engine.absorb_inv (v : Nat) (e : Engine) (h : e.Inv) : (e.absorb v).Inv where
  emptyStart _ hseen := absurd hseen (by simp)
  noEarlySegments := h.noEarlySegments
  errIffCode := h.errIffCode
  accReduced _ := e.absorb_accNat_le v
  placeholderDone _ hseen := absurd hseen (by simp)
  codeLegal := h.codeLegal

/-- The Step 2 result of the placeholder (R142). -/
theorem avalanche_placeholderAcc : avalanche placeholderAcc = 0x3711A961 := by decide

/-- FINALIZE sets DONE, so (a), (b) and (d) say nothing of its result; with SEEN = 0 it ran on the placeholder (e). -/
theorem Engine.finalize_inv (e : Engine) (h : e.Inv) : e.finalize.Inv where
  emptyStart hdone := absurd hdone (by simp)
  noEarlySegments hdone := absurd hdone (by simp)
  errIffCode := h.errIffCode
  accReduced hdone := absurd hdone (by simp)
  placeholderDone _ hseen := by
    have hplaceholder : e.messageAcc = placeholderAcc := if_neg (by simpa using hseen)
    rw [Engine.finalize_acc, hplaceholder, avalanche_placeholderAcc]
  codeLegal := h.codeLegal

/-! ### The range of ACC and the segments -/

theorem Engine.reset_inRange : Engine.reset.InRange where
  acc := by decide
  seg := by decide

theorem Engine.recordError_inRange (c : CmdError) (e : Engine) (h : e.InRange) : (e.recordError c).InRange where
  acc := by simpa [Engine.accNat] using h.acc
  seg i := by simpa using h.seg i

theorem Engine.absorb_inRange (v : Nat) (e : Engine) (h : e.InRange) : (e.absorb v).InRange where
  acc := e.absorb_accNat_le v
  seg i := by simpa using h.seg i

/-- What Step 2 starts from fits 32 bits, the placeholder included. -/
theorem Engine.messageAcc_lt (e : Engine) : e.messageAcc < 2 ^ 32 := by
  unfold Engine.messageAcc
  split
  · exact e.acc.isLt
  · exact lt_trans (mixFrom_lt Const.rom 0 0 (by decide)) (by decide)

/-- FINALIZE writes a Step 2 result, which is never 0xFFFFFFFF (R146), and segments, which end reduced (R29, R147). -/
theorem Engine.finalize_inRange (e : Engine) : e.finalize.InRange where
  acc := by
    have hlt := avalanche_lt_M e.messageAcc_lt
    rw [Engine.accNat, Engine.finalize_acc, toNat_ofNat_of_lt_M hlt]
    exact Nat.le_pred_of_lt hlt
  seg i := by
    have hlt := segmentExpand_lt (avalanche e.messageAcc) i.val
    rw [Engine.finalize_seg, toNat_ofNat_of_lt_M hlt]
    exact Nat.le_pred_of_lt hlt

/-! ### The statements -/

/-- Settles O55: the invariants hold after reset, and each operation keeps them. -/
theorem stepKeepsInvariant : Obligations.StepKeepsInvariant := by
  intro s t hinv hstep
  exact step_keeps Engine.reset_inv Engine.recordError_inv Engine.absorb_inv Engine.finalize_inv hinv hstep

/-- Settles O56: ABSORB and the segments end in a reduction, and Step 2, which does not, never ends in 0xFFFFFFFF. -/
theorem stepKeepsRegistersInRange : Obligations.StepKeepsRegistersInRange := by
  intro s t _ hrange hstep
  exact step_keeps Engine.reset_inRange Engine.recordError_inRange Engine.absorb_inRange
    (fun e _ => e.finalize_inRange) hrange hstep

/-- Settles O54, at the reset engine. -/
theorem invariantHoldsAtReset : Obligations.InvariantHoldsAtReset :=
  ⟨Engine.reset_inv, Engine.reset_inRange⟩

end Sys2Proof.Machine

/-! SUPPORT. What software can read: the window as a function of the elements (R35, R51), STATUS bit by bit (R32), the
frames of ABSORB and FINALIZE, and the latched digest (R26, R38). -/

namespace Sys2Proof.Machine

/-! ### Reading the window -/

/-- Every register but STATUS and ACC reads from the segments alone (R51, R173). -/
theorem readReg_eq_of_seg {e f : Engine} (hseg : ∀ i, e.seg i = f.seg i) {r : Reg} (hstatus : r ≠ .status)
    (hacc : r ≠ .acc) : readReg r e = readReg r f := by
  cases r with
  | cmd => rfl
  | status => exact absurd rfl hstatus
  | acc => exact absurd rfl hacc
  | reserved => rfl
  | seg i => exact hseg i
  | hex n => simp only [readReg, Engine.hexWord, Engine.digestChar, hseg]

/-- Every register but STATUS reads from ACC and the segments. -/
theorem readReg_eq_of_acc_seg {e f : Engine} (hacc : e.acc = f.acc) (hseg : ∀ i, e.seg i = f.seg i) {r : Reg}
    (hstatus : r ≠ .status) : readReg r e = readReg r f := by
  by_cases hr : r = .acc
  · rw [hr]
    exact hacc
  · exact readReg_eq_of_seg hseg hstatus hr

/-- The digest reads from the segments alone (R172). -/
theorem Engine.digest_eq_of_seg {e f : Engine} (hseg : ∀ i, e.seg i = f.seg i) : e.digest = f.digest :=
  congrArg joinSegments (funext hseg)

/-- An error record shows in STATUS alone (R202). -/
theorem readReg_recordError (c : CmdError) (e : Engine) {r : Reg} (hstatus : r ≠ .status) :
    readReg r (e.recordError c) = readReg r e :=
  readReg_eq_of_acc_seg (by simp) (by simp) hstatus

/-! ### STATUS (R32) -/

theorem getLsbD_flagWord (b : Bool) (i : Nat) : (flagWord b).getLsbD i = (decide (i = 0) && b) := by
  cases i with
  | zero => simp [flagWord]
  | succ i => simp [flagWord]

/-- Every bit of STATUS: a flag, a bit of POS or ERRCODE, or 0. -/
theorem getLsbD_status (e : Engine) {i : Nat} (hi : i < 32) :
    e.status.getLsbD i =
      if i = 0 then e.done else if i = 1 then e.seen else if i < 8 then e.pos.getLsbD (i - 2)
      else if i = 8 then e.err else if i < 12 then false else e.errCode.getLsbD (i - 12) := by
  simp only [Engine.status, BitVec.getLsbD_or, BitVec.getLsbD_shiftLeft, BitVec.getLsbD_setWidth, getLsbD_flagWord]
  interval_cases i <;> simp

/-- A slice of STATUS is known from its bits. -/
theorem extractLsb'_status_eq {e : Engine} {start len : Nat} {x : BitVec len}
    (hbits : ∀ i < len, e.status.getLsbD (start + i) = x.getLsbD i) : e.status.extractLsb' start len = x := by
  apply BitVec.eq_of_getLsbD_eq
  intro i hi
  simp [hi, hbits i hi]

/-- Settles O39: each field read off the bits of STATUS. -/
theorem statusFields : Obligations.StatusFields := by
  intro e
  refine ⟨getLsbD_status e (by decide), getLsbD_status e (by decide), extractLsb'_status_eq fun i hi => ?pos,
    extractLsb'_status_eq fun i hi => ?reserved5, getLsbD_status e (by decide),
    extractLsb'_status_eq fun i hi => ?reserved9, extractLsb'_status_eq fun i hi => ?errCode,
    extractLsb'_status_eq fun i hi => ?reserved16⟩
  all_goals rw [getLsbD_status e (by omega)]
  case pos => simp (disch := omega) [if_pos, if_neg]
  case reserved5 => simp (disch := omega) [if_pos, if_neg]
  case reserved9 => simp (disch := omega) [if_pos, if_neg]
  case errCode => simp (disch := omega) [if_neg]
  case reserved16 => simp (disch := omega) [if_neg]

/-- Settles O40: STATUS gives back its fields (R32), and ACC and the segments read as they are. -/
theorem everyElementIsReadable : Obligations.EveryElementIsReadable := by
  intro e f hstatus hacc hseg
  have hstatus : e.status = f.status := hstatus
  obtain ⟨hdone, hseen, hpos, -, herr, -, hcode, -⟩ := statusFields e
  obtain ⟨hdone', hseen', hpos', -, herr', -, hcode', -⟩ := statusFields f
  rw [hstatus] at hdone hseen hpos herr hcode
  exact Engine.eq_of_fields hacc (hpos.symm.trans hpos') (hseen.symm.trans hseen') (hdone.symm.trans hdone')
    (herr.symm.trans herr') (hcode.symm.trans hcode') hseg

/-- Settles O52, by reading the reset engine. -/
theorem resetValues : Obligations.ResetValues :=
  ⟨rfl, by decide, by decide, rfl⟩

/-! ### What ABSORB and FINALIZE write -/

/-- Settles O12: the Step 1 value ends in a reduction, so it fits ACC. -/
theorem absorbLosesNoBit : Obligations.AbsorbLosesNoBit := by
  intro cp s herr hdone hcp
  exact ⟨_, exec_absorb_performed herr hdone hcp s.pending s.responses, s.engine.absorb_accNat _,
    s.engine.absorb_accNat_le _⟩

/-- Settles O10, in the four cases of ABSORB (R85): ignored while poisoned, refused in the DONE phase, performed, or
refused for its operand. -/
theorem absorbFrame : Obligations.AbsorbFrame := by
  intro cp s t hexec
  rcases execAbsorb_cases hexec with ⟨herr, rfl⟩ | ⟨herr, hdone, rfl⟩ | ⟨herr, hdone, hcp, rfl⟩ |
    ⟨herr, hdone, hcp, rfl⟩
  · simp
  · simp_all [readReg_recordError]
  · have hread : ∀ r : Reg, r ≠ .status → r ≠ .acc →
        readReg r (s.engine.absorb cp.toNat) = readReg r s.engine :=
      fun r => readReg_eq_of_seg (Engine.absorb_seg s.engine cp.toNat)
    simp_all
  · simp_all [readReg_recordError]

/-- Settles O16, in the three cases of FINALIZE (R85): ignored while poisoned, refused in the DONE phase, or performed. -/
theorem finalizeFrame : Obligations.FinalizeFrame := by
  intro s t hexec
  rcases execFinalize_cases hexec with ⟨herr, rfl⟩ | ⟨herr, hdone, rfl⟩ | ⟨herr, hdone, rfl⟩
  · simp
  · simp_all [readReg_recordError]
  · simp_all [readReg]

/-! ### The latched digest -/

/-- Settles O34: with DONE = 1 neither ABSORB nor FINALIZE is performed, so a step only records an error or restarts. -/
theorem digestStaysLatchedUntilRestart : Obligations.DigestStaysLatchedUntilRestart := by
  intro s t hstep hdone
  have heffect := step_engineEffect hstep
  generalize t.engine = e' at heffect ⊢
  cases heffect with
  | kept => exact .inl ⟨rfl, rfl, rfl, hdone, fun _ => rfl, rfl⟩
  | restarted ev rest hpending hev => exact .inr ⟨rfl, ev, rest, hpending, hev⟩
  | recorded c =>
    exact .inl ⟨by simp, by simp, by simp, by simpa using hdone, by simp, Engine.digest_eq_of_seg (by simp)⟩
  | absorbed v hphase => exact absurd (hdone.symm.trans hphase) (by decide)
  | finalized hphase => exact absurd (hdone.symm.trans hphase) (by decide)

end Sys2Proof.Machine

/-! SUPPORT. The memory system: what one access of the window does (R51 to R55), which events complete (R52, R231, R237),
the bytes of the HEX words (R56, R173), and agents and instances side by side (R58, R63). -/

namespace Sys2Proof.Machine

/-! ### One access of the window -/

section
variable (e : Engine) (rest : List HostEvent) (rs : List Response)

/-- A read answers the register's value and keeps the block (R51, R53). -/
theorem step_read (r : Reg) :
    step ⟨e, .transaction (.read r.offset 4) :: rest, rs⟩ = .next ⟨e, rest, ⟨r.offset, readReg r e⟩ :: rs⟩ :=
  performEvent_read r ⟨e, rest, rs⟩

/-- A write that reaches a register is that register's write (R54). -/
theorem step_write (r : Reg) (v : Word) :
    step ⟨e, .transaction (.write r.offset 4 v) :: rest, rs⟩ = performWrite r v ⟨e, rest, rs⟩ := by
  simp [performEvent, performTransaction]

/-- Every register but CMD ignores writes (R54). -/
theorem performWrite_readOnly {r : Reg} (hr : r ≠ .cmd) (v : Word) (s : State) : performWrite r v s = .next s := by
  cases r with
  | cmd => exact absurd rfl hr
  | status => rfl
  | acc => rfl
  | reserved => rfl
  | seg i => rfl
  | hex n => rfl

/-- A write of the window completes and changes at most the engine, CMD included (R54, R85). -/
theorem performWrite_completes (r : Reg) (v : Word) (s : State) :
    ∃ e', performWrite r v s = .next (s.withEngine e') := by
  by_cases hr : r = .cmd
  · obtain ⟨e', he', -⟩ := performCommand_effect v s
    exact ⟨e', hr ▸ he'⟩
  · exact ⟨s.engine, performWrite_readOnly hr v s⟩

theorem step_write_completes (r : Reg) (v : Word) :
    ∃ e', step ⟨e, .transaction (.write r.offset 4 v) :: rest, rs⟩ = .next ⟨e', rest, rs⟩ := by
  rw [step_write]
  exact performWrite_completes r v ⟨e, rest, rs⟩

variable {off : Int} {size : Nat}

/-- A read that reaches no register is refused (R52). -/
theorem step_read_refused (h : resolve off size = none) :
    step ⟨e, .transaction (.read off size) :: rest, rs⟩ = .refused .undefinedAccess := by
  simp [performEvent, performTransaction, h]

/-- A write that reaches no register is refused (R52). -/
theorem step_write_refused (h : resolve off size = none) (v : Word) :
    step ⟨e, .transaction (.write off size v) :: rest, rs⟩ = .refused .undefinedAccess := by
  simp [performEvent, performTransaction, h]

/-- The accesses that reach a register are those of R52. -/
theorem resolve_isSome_iff :
    (resolve off size).isSome = true ↔ size = 4 ∧ off % 4 = 0 ∧ 0 ≤ off ∧ off ≤ 0x3C := by
  rcases resolve_cases off size with ⟨haccess, r, -, hr⟩ | ⟨hnot, hr⟩
  · exact iff_of_true (by rw [hr]; rfl) haccess
  · exact iff_of_false (by simp [hr]) hnot

/-- An access that reaches a register is 4 bytes wide, at the offset of a register. -/
theorem exists_reg_of_resolve_isSome (h : (resolve off size).isSome = true) : size = 4 ∧ ∃ r : Reg, r.offset = off := by
  rcases resolve_cases off size with ⟨⟨hsize, -⟩, r, hr, -⟩ | ⟨-, hnone⟩
  · exact ⟨hsize, r, hr⟩
  · simp [hnone] at h

end

/-- Settles O36, by induction over the reads: each keeps the block, so the next sees the same state. -/
theorem readSequenceSeesOneState : Obligations.ReadSequenceSeesOneState := by
  intro regs e rest rs
  induction regs generalizing rs with
  | nil => rfl
  | cons r regs ih =>
    rw [List.length_cons, List.map_cons, List.cons_append, stepN_of_step _ (step_read e _ rs r), ih]
    simp

/-- Settles O35: the offsets of the map are the registers' offsets. -/
theorem readsFollowRegisterMap : Obligations.ReadsFollowRegisterMap := by
  intro e rest rs
  have hread := step_read e rest rs
  exact ⟨hread .cmd, hread .status, hread .acc, hread .reserved, hread (.seg 0), hread (.seg 1), hread (.seg 2),
    hread (.seg 3), fun n => hread (.hex n)⟩

/-- Settles O37: an offset from 0x04 up is no CMD write. -/
theorem writesToReadOnlyIgnored : Obligations.WritesToReadOnlyIgnored := by
  intro e v rest rs off halign hlow hhigh
  obtain ⟨-, r, rfl⟩ := exists_reg_of_resolve_isSome (resolve_isSome_iff.mpr ⟨rfl, halign, by omega, hhigh⟩)
  have hr : r ≠ .cmd := by
    rintro rfl
    exact absurd hlow (by decide)
  rw [step_write, performWrite_readOnly hr]

/-- Settles O38: an access completes where it reaches a register, and is refused where it reaches none. -/
theorem otherAccessesRefused : Obligations.OtherAccessesRefused := by
  intro e v rest rs off size
  constructor
  · intro haccess
    have hnone : resolve off size = none := Option.not_isSome_iff_eq_none.mp (mt resolve_isSome_iff.mp haccess)
    exact ⟨step_read_refused e rest rs hnone, step_write_refused e rest rs hnone v⟩
  · intro haccess
    obtain ⟨rfl, r, rfl⟩ := exists_reg_of_resolve_isSome (resolve_isSome_iff.mpr haccess)
    obtain ⟨e', hwrite⟩ := step_write_completes e rest rs r v
    exact ⟨⟨_, step_read e rest rs r⟩, ⟨_, hwrite⟩⟩

/-! ### Every event -/

/-- Settles O41: the other events of a step keep the engine. -/
theorem onlyCommandsAndResetChangeState : Obligations.OnlyCommandsAndResetChangeState := by
  intro s t hstep hchanged
  rcases step_cases hstep with ⟨-, rfl⟩ | ⟨_, _, -, -, hkept, -⟩ | ⟨_, _, _, -, -, -, hkept, -⟩ |
    ⟨rest, hreset, -⟩ | ⟨w, rest, hcommand, -⟩
  · exact absurd rfl hchanged
  · exact absurd hkept hchanged
  · exact absurd hkept hchanged
  · exact ⟨rest, .inl hreset⟩
  · exact ⟨rest, .inr ⟨w, hcommand⟩⟩

/-- A defined event is performed by one step and nothing else is taken from the pending events (R237). -/
theorem step_completes_of_defined {ev : HostEvent} (hev : ev.defined = true) (e : Engine) (rest : List HostEvent)
    (rs : List Response) : ∃ e' rs', step ⟨e, ev :: rest, rs⟩ = .next ⟨e', rest, rs'⟩ := by
  cases ev with
  | reset => exact ⟨Engine.reset, rs, rfl⟩
  | resetDuring tr => simp [HostEvent.defined] at hev
  | transaction tr =>
    cases tr with
    | read off size =>
      obtain ⟨rfl, r, rfl⟩ := exists_reg_of_resolve_isSome hev
      exact ⟨e, _, step_read e rest rs r⟩
    | write off size v =>
      obtain ⟨rfl, r, rfl⟩ := exists_reg_of_resolve_isSome hev
      obtain ⟨e', hwrite⟩ := step_write_completes e rest rs r v
      exact ⟨e', rs, hwrite⟩

/-- An event the spec does not define is refused (R52, R231). -/
theorem step_refused_of_not_defined {ev : HostEvent} (hev : ev.defined = false) (e : Engine) (rest : List HostEvent)
    (rs : List Response) : ∃ r, step ⟨e, ev :: rest, rs⟩ = .refused r := by
  cases ev with
  | reset => simp [HostEvent.defined] at hev
  | resetDuring tr => exact ⟨.resetDuringTransaction, rfl⟩
  | transaction tr =>
    cases tr with
    | read off size =>
      have hnone : resolve off size = none := by simpa [HostEvent.defined] using hev
      exact ⟨_, step_read_refused e rest rs hnone⟩
    | write off size v =>
      have hnone : resolve off size = none := by simpa [HostEvent.defined] using hev
      exact ⟨_, step_write_refused e rest rs hnone v⟩

/-- Settles O42: an event is defined exactly where its transaction reaches a register, or it is the reset event. -/
theorem definedEventsComplete : Obligations.DefinedEventsComplete :=
  ⟨fun e _ rest rs hev => step_completes_of_defined hev e rest rs,
   fun e _ rest rs hev => step_refused_of_not_defined hev e rest rs, step_idle⟩

/-! ### The HEX words -/

/-- A character moved to byte lane k of a 32-bit word (R173). -/
def byteLane (k : Fin 4) (c : Byte) : Word := c.setWidth 32 <<< (8 * k.val)

/-- A character moved to a lane shows in that lane alone. -/
theorem extractLsb'_byteLane (k m : Fin 4) (c : Byte) :
    (byteLane m c).extractLsb' (8 * k.val) 8 = if k = m then c else 0#8 := by
  apply BitVec.eq_of_getLsbD_eq
  intro i hi
  simp only [byteLane, BitVec.getLsbD_extractLsb', BitVec.getLsbD_shiftLeft, BitVec.getLsbD_setWidth]
  rcases lt_trichotomy k m with hlt | rfl | hgt
  · have hbelow : 8 * k.val + i < 8 * m.val := by omega
    simp [hlt.ne, hbelow]
  · have hword : 8 * k.val + i < 32 ∧ i < 32 := by omega
    simp [hi, hword]
  · have habove : 8 ≤ 8 * k.val + i - 8 * m.val := by omega
    simp [hgt.ne', BitVec.getLsbD_of_ge c _ habove]

/-- HEXn is its four characters, each in its lane (R173). -/
theorem Engine.hexWord_eq_byteLanes (e : Engine) (n : Fin 8) :
    e.hexWord n = byteLane 0 (e.digestChar (charIndex n 0)) ||| byteLane 1 (e.digestChar (charIndex n 1))
      ||| byteLane 2 (e.digestChar (charIndex n 2)) ||| byteLane 3 (e.digestChar (charIndex n 3)) := by
  simp [Engine.hexWord, byteLane]

/-- Byte lane k of HEXn is character 4n + k of the digest (R173). -/
theorem Engine.extractLsb'_hexWord (e : Engine) (n : Fin 8) (k : Fin 4) :
    (e.hexWord n).extractLsb' (8 * k.val) 8 = e.digestChar (charIndex n k) := by
  simp only [Engine.hexWord_eq_byteLanes, BitVec.extractLsb'_or, extractLsb'_byteLane]
  fin_cases k <;> simp

/-- A little-endian host stores the four characters of HEXn in the digest's order (R56, R173). -/
theorem Engine.littleEndianBytes_hexWord (e : Engine) (n : Fin 8) :
    littleEndianBytes (e.hexWord n) = (List.finRange 4).map (fun k => e.digestChar (charIndex n k)) := by
  simp only [← Engine.extractLsb'_hexWord]
  rfl

/-- The digest lists its characters D[0] to D[31] (R172). -/
theorem Engine.digest_eq_map_digestChar (e : Engine) : e.digest = (List.finRange 32).map e.digestChar := rfl

/-- Settles O46: character by character, and word by word. -/
theorem hexWordsSpellTheDigest : Obligations.HexWordsSpellTheDigest := by
  intro e
  constructor
  · intro n k
    rw [Engine.extractLsb'_hexWord, Engine.digest_eq_map_digestChar]
    have hj : 4 * n.val + k.val < 32 := (charIndex n k).isLt
    simp [hj, charIndex]
  · simp only [Engine.littleEndianBytes_hexWord]
    rfl

/-! ### Several agents, several instances -/

/-- Taking the first element of one list of many takes it from their concatenation. -/
theorem flatten_perm_cons_flatten_set {α : Type} {lists : List (List α)} {k : Nat} (hk : k < lists.length) {a : α}
    {l : List α} (hget : lists[k] = a :: l) : lists.flatten.Perm (a :: (lists.set k l).flatten) := by
  have hsplit : lists = lists.take k ++ (a :: l) :: lists.drop (k + 1) := by
    rw [← hget, List.getElem_cons_drop, List.take_append_drop]
  have hset : lists.set k l = lists.take k ++ l :: lists.drop (k + 1) := by
    rw [List.set_eq_take_append_cons_drop, if_pos hk]
  have hbefore : lists.flatten = (lists.take k).flatten ++ a :: (l :: lists.drop (k + 1)).flatten := by
    simpa using congrArg List.flatten hsplit
  rw [hbefore, hset, List.flatten_append]
  exact List.perm_middle

/-- Replacing one list of many leaves every other list among them. -/
theorem mem_set_or_eq_of_mem {α : Type} {lists : List (List α)} {k : Nat} (hk : k < lists.length) (l : List α)
    {x : List α} (hx : x ∈ lists) : x ∈ lists.set k l ∨ x = lists[k] := by
  obtain ⟨j, hj, rfl⟩ := List.mem_iff_getElem.mp hx
  by_cases hjk : k = j
  · exact .inr (by simp [hjk])
  · exact .inl (List.mem_iff_getElem.mpr ⟨j, by simpa using hj, List.getElem_set_ne hjk _⟩)

/-- Each agent's stream is a subsequence of the order it arrives in (R58). -/
theorem Interleaves.sublist {streams : List (List HostEvent)} {order : List HostEvent}
    (h : Interleaves streams order) : ∀ st ∈ streams, st.Sublist order := by
  induction h with
  | done streams hempty =>
    intro st hst
    rw [hempty st hst]
  | pick streams k ev rest order hhead _ ih =>
    intro st hst
    rcases mem_set_or_eq_of_mem k.isLt rest hst with hother | hpicked
    · exact (ih st hother).cons ev
    · rw [hpicked.trans hhead]
      exact (ih rest (List.mem_set k.isLt rest)).cons_cons ev

/-- The order rearranges all the agents' events together (R58, R63). -/
theorem Interleaves.perm_flatten {streams : List (List HostEvent)} {order : List HostEvent}
    (h : Interleaves streams order) : order.Perm streams.flatten := by
  induction h with
  | done streams hempty => rw [List.flatten_eq_nil_iff.mpr hempty]
  | pick streams k ev rest order hhead _ ih =>
    exact (ih.cons ev).trans (flatten_perm_cons_flatten_set k.isLt hhead).symm

/-- Settles O58, by induction over the picks that build the order. -/
theorem interleavingKeepsEachAgentsOrder : Obligations.InterleavingKeepsEachAgentsOrder :=
  fun _ _ h => ⟨h.sublist, h.perm_flatten⟩

/-- A step of a system answers the system in which block k alone has stepped (R63, R213). -/
theorem stepInstance_next {sys sys' : List State} {k : Fin sys.length} (h : stepInstance sys k = .next sys') :
    ∃ t, step (sys.get k) = .next t ∧ sys' = sys.set k t := by
  unfold stepInstance at h
  split at h
  · next t hstep => exact ⟨t, hstep, (Host.Outcome.next.inj h).symm⟩
  · cases h
  · cases h

/-- Settles O57: the system after the step differs at the stepping block alone. -/
theorem instancesAreIndependent : Obligations.InstancesAreIndependent := by
  intro sys sys' k h
  obtain ⟨t, hstep, rfl⟩ := stepInstance_next h
  exact ⟨List.length_set, fun j hj => List.getElem?_set_ne hj.symm, t, hstep, List.getElem?_set_self k.isLt⟩

end Sys2Proof.Machine

/-! SUPPORT. The command set as an encoding (R80 to R86): the decoder inverts the encoder and back, so a decoded command is
the word's only meaning; what a CMD write does, once per answer of the decoder; and the assembler's words (R88, R89). -/

namespace Sys2Proof.Machine

/-! ### Words as numbers -/

/-- Format C as a number: RSV adds nothing between OP and CP (R80). -/
theorem packCommand_toNat (op : BitVec 8) (cp : BitVec 21) :
    (packCommand op cp).toNat = op.toNat * 2 ^ 24 + cp.toNat := by
  have hcp : (0#3 ++ cp).toNat = cp.toNat := by
    rw [BitVec.toNat_append, BitVec.toNat_zero, Nat.zero_shiftLeft, Nat.zero_or]
  have hlt : (0#3 ++ cp).toNat < 2 ^ 24 := (0#3 ++ cp).isLt
  rw [packCommand, BitVec.toNat_append, ← Nat.shiftLeft_add_eq_or_of_lt hlt, Nat.shiftLeft_eq, hcp]

/-- A word is known by its OP and CP fields when RSV is 0 (R80). -/
theorem eq_packCommand_of_toNat {w : Word} {op : BitVec 8} {cp : BitVec 21}
    (h : w.toNat = op.toNat * 2 ^ 24 + cp.toNat) : packCommand op cp = w :=
  BitVec.eq_of_toNat_eq ((packCommand_toNat op cp).trans h.symm)

/-- ABSORB's mask clears CP and keeps OP and RSV (R82). -/
theorem and_absorbMask (w : Word) : w &&& 0xFFE00000#32 = (w >>> 21) <<< 21 := by
  have hmask : 0xFFE00000#32 = BitVec.allOnes 32 <<< 21 := by decide
  rw [hmask]
  apply BitVec.eq_of_getLsbD_eq
  intro i hi
  simp only [BitVec.getLsbD_and, BitVec.getLsbD_shiftLeft, BitVec.getLsbD_allOnes, BitVec.getLsbD_ushiftRight]
  rcases Nat.lt_or_ge i 21 with hlow | hhigh
  · simp [hlow]
  · have hsub : i - 21 < 32 := by omega
    simp [hi, hhigh.not_gt, hsub, Nat.add_sub_cancel' hhigh]

/-- ABSORB's match and mask pair as a number: OP is 2 and RSV is 0 (R82). -/
theorem and_absorbMask_eq_iff (w : Word) : w &&& 0xFFE00000#32 = 0x02000000#32 ↔ w.toNat / 2 ^ 21 = 16 := by
  have hw := w.isLt
  rw [and_absorbMask, BitVec.toNat_eq, BitVec.toNat_shiftLeft, BitVec.toNat_ushiftRight, Nat.shiftRight_eq_div_pow,
    Nat.shiftLeft_eq, BitVec.toNat_ofNat]
  omega

/-! ### The decoder and the encoder invert each other -/

/-- A decoded command's own word is the word it was decoded from (R82, R86). -/
theorem encode_of_decode {w : Word} {i : Instr} (h : decode w = .ok i) : encode i = w := by
  rcases decode_cases w with ⟨-, hd⟩ | ⟨-, -, hd⟩ | ⟨-, -, -, hd⟩ | ⟨hw, hd⟩ | ⟨hw, hd⟩ | ⟨hop, hrsv, hd⟩ | ⟨hw, hd⟩ <;>
    cases hd.symm.trans h
  · exact eq_packCommand_of_toNat hw
  · exact eq_packCommand_of_toNat hw
  · apply eq_packCommand_of_toNat
    rw [cpField_toNat, opAbsorb, BitVec.toNat_ofNat]
    omega
  · exact eq_packCommand_of_toNat hw

/-- Each command has one word, and that word no other meaning (R82, R86). -/
theorem decode_eq_ok_iff {w : Word} {i : Instr} : decode w = .ok i ↔ w = encode i :=
  ⟨fun h => (encode_of_decode h).symm, fun h => h ▸ decode_encode i⟩

/-- Settles O1: the fields of a packed word are the ones it was packed from. -/
theorem decodeOfEncodeIsTheCommand : Obligations.DecodeOfEncodeIsTheCommand := decode_encode

/-- Settles O2: the checks the decoder makes leave no bit of a legal word free but ABSORB's CP. -/
theorem encodeOfDecodeIsTheWord : Obligations.EncodeOfDecodeIsTheWord := fun _ _ => encode_of_decode

/-- Settles O3: a row with a full mask fixes the whole word, ABSORB's fixes OP and RSV and leaves CP to the operand. -/
theorem decodeAgreesWithMatchAndMask : Obligations.DecodeAgreesWithMatchAndMask := by
  intro w
  have hfull : w &&& 0xFFFFFFFF#32 = w := BitVec.and_allOnes
  simp only [hfull, decode_eq_ok_iff]
  refine ⟨Iff.rfl, Iff.rfl, Iff.rfl, fun cp => ?_⟩
  rw [and_absorbMask_eq_iff, encode, BitVec.toNat_eq, packCommand_toNat, opAbsorb, BitVec.toNat_ofNat]
  omega

/-- Settles O4, by evaluating the decoder on the eight words. -/
theorem writtenOutWordsDecode : Obligations.WrittenOutWordsDecode := by
  unfold Obligations.WrittenOutWordsDecode
  decide

/-! ### A CMD write, by the decoder's answer -/

/-- R83's words. -/
theorem decode_reservedOpcode {w : Word} (h : 3 < w.toNat / 2 ^ 24) : decode w = .error .reservedOpcode := by
  rcases decode_cases w with ⟨-, hd⟩ | ⟨hop, -⟩ | ⟨hop, -⟩ | ⟨hw, -⟩ | ⟨hw, -⟩ | ⟨hop, -⟩ | ⟨hw, -⟩
  · exact hd
  all_goals omega

/-- R84's words. -/
theorem decode_reservedBits {w : Word}
    (h : (w.toNat / 2 ^ 24 = 2 ∧ w.toNat / 2 ^ 21 % 8 ≠ 0) ∨
      ((w.toNat / 2 ^ 24 = 0 ∨ w.toNat / 2 ^ 24 = 1 ∨ w.toNat / 2 ^ 24 = 3) ∧ w.toNat % 2 ^ 24 ≠ 0)) :
    decode w = .error .reservedBits := by
  rcases decode_cases w with ⟨hop, -⟩ | ⟨-, -, hd⟩ | ⟨-, -, -, hd⟩ | ⟨hw, -⟩ | ⟨hw, -⟩ | ⟨hop, hrsv, -⟩ | ⟨hw, -⟩
  case inr.inl => exact hd
  case inr.inr.inl => exact hd
  all_goals omega

section
variable {w : Word} (e : Engine) (rest : List HostEvent) (rs : List Response)

/-- An illegal word records its error and does nothing else (R83, R84, R202). -/
theorem step_illegal {d : DecodeError} (h : decode w = .error d) :
    step ⟨e, commandEvent w :: rest, rs⟩ = .next ⟨e.recordError (illegalWordError d), rest, rs⟩ := by
  rw [step_event, performEvent_command, performCommand, h]
  rfl

/-- A legal word runs its command (R85). -/
theorem step_legal {i : Instr} (h : decode w = .ok i) :
    step ⟨e, commandEvent w :: rest, rs⟩ = exec i ⟨e, rest, rs⟩ := by
  rw [← encode_of_decode h, step_encoded]

/-- The effect of ABSORB on the engine: the state checks of R85 in their order, then R120. -/
theorem exec_absorb_eq (cp : BitVec 21) :
    exec (.absorb cp) ⟨e, rest, rs⟩ = .next
      ⟨if e.err then e
        else if e.done then e.recordError .absorbDone
        else if cp.toNat > 0x10FFFF then e.recordError .cpRange
        else e.absorb cp.toNat, rest, rs⟩ := by
  cases herr : e.err with
  | true => simp [exec, execAbsorb, herr]
  | false =>
    cases hdone : e.done with
    | true => simp [exec, execAbsorb, herr, hdone, raiseCmdError, State.withEngine]
    | false =>
      by_cases hcp : cp.toNat ≤ 0x10FFFF
      · simp [exec_absorb_performed herr hdone hcp, hcp.not_gt]
      · simp [exec, execAbsorb, herr, hdone, raiseCmdError, State.withEngine, codePointInRange, codePoint,
          Const.maxCodePoint, hcp, Nat.lt_of_not_le hcp]

/-- The effect of FINALIZE on the engine: the state checks of R85 in their order, then R140. -/
theorem exec_finalize_eq :
    exec .finalize ⟨e, rest, rs⟩ = .next
      ⟨if e.err then e else if e.done then e.recordError .finalDone else e.finalize, rest, rs⟩ := by
  cases herr : e.err with
  | true => simp [exec, execFinalize, herr]
  | false =>
    cases hdone : e.done with
    | true => simp [exec, execFinalize, herr, hdone, raiseCmdError, State.withEngine]
    | false => simp [exec_finalize_performed herr hdone]

end

/-- A 32-bit table row is placed as the word it holds (log entry 15). -/
theorem withFetchWord_word (s : State) (w : Word) :
    s.withFetchWord 32 w.toNat = { s with pending := commandEvent w :: s.pending } := by
  have hrow : tableWord 32 w.toNat = some w := by
    rw [tableWord, if_pos le_rfl, Nat.mod_eq_of_lt w.isLt, BitVec.ofNat_toNat, BitVec.setWidth_eq]
  rw [State.withFetchWord, hrow]

/-- Settles O5: `withFetchWord` places the very event of a CMD write. -/
theorem commandWriteRunsDecodedCommand : Obligations.CommandWriteRunsDecodedCommand := by
  intro e w rest rs i hd
  rw [withFetchWord_word]
  exact ⟨step_legal e rest rs hd, step_legal e rest rs hd⟩

/-- Settles O6, in the seven answers of the decoder: each decides the checks on the word's fields. -/
theorem commandWriteFollowsProcedure : Obligations.CommandWriteFollowsProcedure := by
  intro e w rest rs
  rcases decode_cases w with ⟨hop, hd⟩ | ⟨hop, hrsv, hd⟩ | ⟨hop, hne, hlow, hd⟩ | ⟨hw, hd⟩ | ⟨hw, hd⟩ |
    ⟨hop, hrsv, hd⟩ | ⟨hw, hd⟩
  · rw [step_illegal e rest rs hd]
    simp [-Nat.reducePow, hop, Engine.recordError, illegalWordError, CmdError.code]
  · rw [step_illegal e rest rs hd]
    simp [-Nat.reducePow, hop, hrsv, Engine.recordError, illegalWordError, CmdError.code]
  · rw [step_illegal e rest rs hd]
    simp [-Nat.reducePow, hop.not_gt, hne, hlow, Engine.recordError, illegalWordError, CmdError.code]
  · rw [step_legal e rest rs hd]
    simp [hw, exec, execNop]
  · rw [step_legal e rest rs hd]
    simp [hw, exec, execInit, State.withEngine]
  · rw [step_legal e rest rs hd, exec_absorb_eq]
    simp [-Nat.reducePow, hop, hrsv, cpField_toNat, Engine.recordError, CmdError.code]
  · rw [step_legal e rest rs hd, exec_finalize_eq]
    simp [hw, Engine.recordError, CmdError.code]

/-! ### The errors of a command -/

/-- Settles O27: the opcode check is the decoder's first, so no other bit of the word matters. -/
theorem reservedOpcodeRaises : Obligations.ReservedOpcodeRaises :=
  fun e _ rest rs hop => step_illegal e rest rs (decode_reservedOpcode hop)

/-- Settles O28; the word 0 is NOP's own. -/
theorem reservedBitsRaise : Obligations.ReservedBitsRaise :=
  ⟨fun e _ rest rs hbits => step_illegal e rest rs (decode_reservedBits hbits),
   fun e rest rs => step_encoded .nop e rest rs⟩

/-- Settles O29: with ERR = 0 the DONE check comes before the range check. -/
theorem phaseAndRangeErrors : Obligations.PhaseAndRangeErrors := by
  rintro ⟨e, rest, rs⟩ (herr : e.err = false)
  refine ⟨fun cp hdone => ?_, fun hdone => ?_, fun cp (hdone : e.done = false) hcp => ?_⟩
  · rw [exec_absorb_eq, if_neg (by simp [herr]), if_pos hdone, recordError_fresh _ herr]
    rfl
  · rw [exec_finalize_eq, if_neg (by simp [herr]), if_pos hdone, recordError_fresh _ herr]
    rfl
  · rw [exec_absorb_eq, if_neg (by simp [herr]), if_neg (by simp [hdone]), if_pos hcp, recordError_fresh _ herr]
    rfl

/-! ### The assembler -/

/-- The word of ABSORB is its OP with the operand below it (R88). -/
theorem encode_absorb_eq_or {n : Nat} (hn : n ≤ 0x10FFFF) :
    encode (.absorb (BitVec.ofNat 21 n)) = 0x02000000#32 ||| BitVec.ofNat 32 n := by
  have hlow : n < 2 ^ 24 := by omega
  apply eq_packCommand_of_toNat
  rw [BitVec.toNat_or, BitVec.toNat_ofNat, BitVec.toNat_ofNat, BitVec.toNat_ofNat,
    Nat.mod_eq_of_lt (show n < 2 ^ 32 by omega), Nat.mod_eq_of_lt (show n < 2 ^ 21 by omega)]
  exact (Nat.shiftLeft_add_eq_or_of_lt hlow 2).symm

theorem assembleAbsorb_accepted {n : Nat} (hn : n ≤ 0x10FFFF) :
    assembleAbsorb n = .ok (commandEvent (encode (.absorb (BitVec.ofNat 21 n)))) := if_pos hn

theorem assembleAbsorb_refused {n : Nat} (hn : 0x10FFFF < n) : assembleAbsorb n = .error .codePointRange :=
  if_neg hn.not_ge

theorem asWord_toNat (w : Word) : asWord w.toNat = .ok w := by
  rw [asWord, if_pos w.isLt, BitVec.ofNat_toNat, BitVec.setWidth_eq]

/-- Settles O59: the range check of R88 decides whether an ABSORB has a word. -/
theorem assemblerCommandWords : Obligations.AssemblerCommandWords := by
  refine ⟨rfl, rfl, rfl, fun n hn => ?_, fun n hn => ?_, fun w => ?_⟩
  · rw [assembleLine, assembleAbsorb_accepted hn, encode_absorb_eq_or hn]
    rfl
  · rw [assembleLine, assembleAbsorb_refused hn]
    rfl
  · rw [assembleLine, asWord_toNat]
    rfl

/-- A text of code points expands to their ABSORBs, in order (R89). -/
theorem assembleText_eq (text : List Nat) (h : ∀ n ∈ text, n ≤ 0x10FFFF) :
    assembleText text = .ok (absorbEvents (text.map (BitVec.ofNat 21))) := by
  induction text with
  | nil => rfl
  | cons n ns ih =>
    obtain ⟨hn, htail⟩ := List.forall_mem_cons.mp h
    simp [assembleText, assembleAbsorb_accepted hn, ih htail, absorbEvents_cons]

/-- Settles O60: HASH puts the expansion of ABSORBS between INIT and FINALIZE. -/
theorem hashExpandsToTheMessage : Obligations.HashExpandsToTheMessage := by
  intro text h
  rw [assembleLine, assembleLine, assembleText_eq text h]
  exact ⟨by simp [absorbEvents], rfl⟩

end Sys2Proof.Machine

/-! SUPPORT. The control commands (40_control.md): NOP and INIT complete in every state, and their words with other bits set
record E_RESERVED (R100, R101). -/

namespace Sys2Proof.Machine

/-- NOP is `skip` (R100). -/
theorem exec_nop (s : State) : exec .nop s = .next s := rfl

/-- A word with OP of NOP or INIT and other bits set records E_RESERVED and does nothing else (R100, R101, R84). -/
theorem step_control_reserved {w : Word} (e : Engine) (rest : List HostEvent) (rs : List Response)
    (hop : w.toNat / 2 ^ 24 = 0 ∨ w.toNat / 2 ^ 24 = 1) (hlow : w.toNat % 2 ^ 24 ≠ 0) :
    step ⟨e, commandEvent w :: rest, rs⟩ = .next ⟨e.recordError .reserved, rest, rs⟩ :=
  step_illegal e rest rs (decode_reservedBits (.inr ⟨hop.imp_right .inl, hlow⟩))

/-- Settles O7: the word 0 is NOP's own, which is `skip`; any other word with OP 0 is illegal. -/
theorem nopChangesNothing : Obligations.NopChangesNothing :=
  have ⟨_, hstatus, _⟩ := resetValues
  ⟨exec_nop, step_encoded .nop,
   fun e _ rest rs hop hlow => step_control_reserved e rest rs (.inl hop) hlow,
   hstatus, rfl⟩

/-- Settles O8: INIT's assignments are the reset state of R36, and its step reads nothing of the engine before it. -/
theorem initClearsEveryElement : Obligations.InitClearsEveryElement :=
  ⟨fun s => exec_init s.engine s.pending s.responses, step_encoded .init,
   fun e _ rest rs hop hlow => step_control_reserved e rest rs (.inr hop) hlow⟩

end Sys2Proof.Machine

/-! SUPPORT. ABSORB and the Step 1 datapath (41_absorb.md): what a performed ABSORB writes, the exact widths of MIX, the
post-XOR reduction and the end-around-carry fold. -/

namespace Sys2Proof.Machine

/-! ### A performed ABSORB -/

/-- Settles O9: a performed ABSORB writes the engine of R120's pseudocode, whose MIX has the constants of R8. -/
theorem absorbResult : Obligations.AbsorbResult := by
  intro cp s herr hdone hcp
  exact exec_absorb_performed herr hdone hcp s.pending s.responses

/-- Settles O49: the engine that has absorbed a message is in the ABSORB phase, and absorbing a code point extends it. -/
theorem absorbExtendsTheMessage : Obligations.AbsorbExtendsTheMessage := by
  intro cps cp p rs hcp
  rw [exec_absorb_performed rfl rfl hcp, Engine.absorb_absorbed]

/-! ### The widths of MIX (R121, R122, R123) -/

theorem barrelShift_eq_mul (pos v : Nat) : barrelShift pos v = v * 2 ^ pos := Nat.shiftLeft_eq v pos

/-- The shifter's largest output is the largest code point at the last position (R122). -/
theorem barrelShift_le {pos v : Nat} (hpos : pos ≤ 7) (hv : v ≤ 0x10FFFF) : barrelShift pos v ≤ 0x087FFF80 := by
  calc barrelShift pos v = v * 2 ^ pos := barrelShift_eq_mul pos v
    _ ≤ 0x10FFFF * 2 ^ 7 := Nat.mul_le_mul hv (Nat.pow_le_pow_right (by decide) hpos)
    _ = 0x087FFF80 := rfl

/-- The largest multiply-add sum, of a reduced ACC and the largest shifted code point (R123). -/
theorem multiplyAdd_le {acc shifted : Nat} (hacc : acc ≤ 0xFFFFFFFE) (hshifted : shifted ≤ 0x087FFF80) :
    multiplyAdd acc shifted ≤ 0x1F087FFF42 := by
  unfold multiplyAdd Const.prime
  omega

/-- The upper half of a 32-bit value has 16 bits. -/
theorem shiftRight_sixteen_lt {u : Nat} (hu : u < 2 ^ 32) : u >>> 16 < 2 ^ 16 := by
  rw [Nat.shiftRight_eq_div_pow]
  omega

/-- Settles O11: each stage's bound is that of its largest inputs, and MIX ends in `mod M`. -/
theorem mixIsExactAndReduced : Obligations.MixIsExactAndReduced := by
  intro acc pos v hacc hpos hv shifted t u w
  have hshifted : shifted ≤ 0x087FFF80 := barrelShift_le hpos hv
  have ht : t ≤ 0x1F087FFF42 := multiplyAdd_le hacc hshifted
  have hu : u < 2 ^ 32 := lt_trans (mod_M_lt t) (by decide)
  exact ⟨barrelShift_eq_mul pos v, hshifted, ht, lt_of_le_of_lt ht (by decide), shiftRight_sixteen_lt hu,
    foldHalves_lt hu, rfl, Nat.le_pred_of_lt (mix_lt acc pos v)⟩

/-! ### The post-XOR reduction (R127) -/

/-- The XOR changes the lower half only. -/
theorem foldHalves_shiftRight {u : Nat} (hu : u < 2 ^ 32) : foldHalves u >>> 16 = u >>> 16 := by
  have hhigh : u >>> 16 >>> 16 = 0 := Nat.shiftRight_eq_zero _ _ (shiftRight_sixteen_lt hu)
  rw [foldHalves, Const.foldShift, Nat.shiftRight_xor_distrib, hhigh, Nat.xor_zero]

/-- So the XOR is its own inverse on 32-bit values. -/
theorem foldHalves_foldHalves {u : Nat} (hu : u < 2 ^ 32) : foldHalves (foldHalves u) = u := by
  calc foldHalves (foldHalves u) = foldHalves u ^^^ (foldHalves u >>> 16) := rfl
    _ = u ^^^ (u >>> 16) ^^^ (u >>> 16) := by rw [foldHalves_shiftRight hu]; rfl
    _ = u := Nat.xor_xor_cancel_right u _

/-- The XOR reaches M from one 32-bit value only. -/
theorem foldHalves_eq_M_iff {u : Nat} (hu : u < 2 ^ 32) : foldHalves u = Const.M ↔ u = 0xFFFF0000 := by
  constructor
  · intro h
    calc u = foldHalves (foldHalves u) := (foldHalves_foldHalves hu).symm
      _ = foldHalves Const.M := by rw [h]
      _ = 0xFFFF0000 := by decide
  · rintro rfl
    decide

/-- Of the 32-bit values `mod M` changes M only. -/
theorem mod_M_ne_self_iff {w : Nat} (hw : w < 2 ^ 32) : w % Const.M ≠ w ↔ w = Const.M := by
  unfold Const.M
  omega

/-- Settles O13: `mod M` changes no 32-bit value but M, and the XOR, being its own inverse, reaches M from one value only. -/
theorem postXorReductionActsOnlyAtOneValue : Obligations.PostXorReductionActsOnlyAtOneValue := by
  refine ⟨fun u hu => ?_, by decide⟩
  have hu32 : u < 2 ^ 32 := lt_trans hu (by decide)
  exact ⟨(mod_M_ne_self_iff (foldHalves_lt hu32)).trans (foldHalves_eq_M_iff hu32), foldHalves_eq_M_iff hu32,
    foldHalves_shiftRight hu32⟩

/-! ### The end-around-carry fold (R126) -/

/-- The fold adds the part above 32 bits to the part below. -/
theorem carryFold_eq_add (x : Nat) : carryFold x = x % 2 ^ 32 + x / 2 ^ 32 := by
  rw [carryFold, Nat.and_two_pow_sub_one_eq_mod x 32, Nat.shiftRight_eq_div_pow]

/-- Modulo M, 2^32 is 1, so a fold keeps the residue. -/
theorem carryFold_mod_M (x : Nat) : carryFold x % Const.M = x % Const.M := by
  rw [carryFold_eq_add, Const.M_eq]
  omega

theorem carryLoop_mod_M (fuel : Nat) : ∀ y, carryLoop fuel y % Const.M = y % Const.M := by
  induction fuel with
  | zero => exact fun _ => rfl
  | succ fuel ih =>
    intro y
    unfold carryLoop
    split
    · rw [ih, carryFold_mod_M]
    · rfl

/-- The loop stops at a value of 32 bits. -/
theorem carryLoop_of_le {y : Nat} (hy : y ≤ 0xFFFFFFFF) : ∀ fuel, carryLoop fuel y = y
  | 0 => rfl
  | _ + 1 => if_neg hy.not_gt

/-- The first fold of a 64-bit value adds two 32-bit halves. -/
theorem carryFold_le {x : Nat} (hx : x < 2 ^ 64) : carryFold x ≤ 2 * 0xFFFFFFFF := by
  rw [carryFold_eq_add]
  omega

/-- One correction of such a sum leaves 32 bits, so the loop runs its body at most once. -/
theorem carryLoop_le {y fuel : Nat} (hy : y ≤ 2 * 0xFFFFFFFF) (hfuel : 1 ≤ fuel) : carryLoop fuel y ≤ 0xFFFFFFFF := by
  obtain ⟨n, rfl⟩ := Nat.exists_eq_add_of_le' hfuel
  unfold carryLoop
  split
  case isTrue hcarry =>
    have hfold : carryFold y ≤ 0xFFFFFFFF := by
      rw [carryFold_eq_add]
      omega
    rwa [carryLoop_of_le hfold]
  case isFalse hdone => exact Nat.le_of_not_gt hdone

/-- R126's last line reduces a 32-bit value. -/
theorem allOnesToZero_eq_mod_M {y : Nat} (hy : y ≤ 0xFFFFFFFF) : allOnesToZero y = y % Const.M := by
  unfold allOnesToZero Const.M
  split <;> omega

/-- The whole algorithm, with room for at least one correction: the residue is kept, and the loop ends within 32 bits. -/
theorem allOnesToZero_carryLoop_carryFold {x fuel : Nat} (hx : x < 2 ^ 64) (hfuel : 1 ≤ fuel) :
    allOnesToZero (carryLoop fuel (carryFold x)) = x % Const.M := by
  rw [allOnesToZero_eq_mod_M (carryLoop_le (carryFold_le hx) hfuel), carryLoop_mod_M, carryFold_mod_M]

/-- Settles O14: all three parts are the algorithm with room for one correction. -/
theorem endAroundCarryComputesModM : Obligations.EndAroundCarryComputesModM :=
  ⟨fun _ hx => allOnesToZero_carryLoop_carryFold hx (by decide),
   fun _ _ hx hfuel => allOnesToZero_carryLoop_carryFold hx hfuel,
   fun _ hx => allOnesToZero_carryLoop_carryFold (lt_trans hx (by decide)) le_rfl⟩

/-! ### Order and emptiness (R125, R142) -/

/-- Step 0 takes the empty message to the placeholder and leaves the placeholder alone (R142). -/
theorem stepZero_nil : stepZero [] = stepZero Const.rom := rfl

/-- Every later step reads only what Step 0 gives. -/
theorem digestOf_nil : digestOf [] = digestOf Const.rom := by
  simp only [digestOf, digestSegment, digestAcc, streamAcc, stepZero_nil]

/-- Settles O51: the digests of "ab" and "ba" are evaluated, and Step 0 gives the empty message the placeholder's. -/
theorem orderMattersAndEmptyIsPlaceholder : Obligations.OrderMattersAndEmptyIsPlaceholder :=
  ⟨by decide, digestOf_nil, by decide, by decide⟩

end Sys2Proof.Machine

/-! SUPPORT. FINALIZE (42_finalize.md): what it writes (Steps 0, 2 and 3), the Step 2 and Step 3 procedures with their
constants, and the facts of R145, R146 and R149 about their values. -/

namespace Sys2Proof.Machine

/-! ### A performed FINALIZE (R140, R142, R148) -/

/-- Step 0, by the case of R142's pseudocode: nothing was absorbed. -/
theorem Engine.messageAcc_eq (e : Engine) :
    e.messageAcc = if e.seen = false then placeholderAcc else e.acc.toNat := by
  unfold Engine.messageAcc Engine.accNat
  cases e.seen <;> rfl

/-- ACC after FINALIZE is the whole Step 2 result: the narrowing to 32 bits loses nothing (R145). -/
theorem Engine.finalize_acc_toNat (e : Engine) : e.finalize.acc.toNat = avalanche e.messageAcc :=
  toNat_ofNat_of_lt (avalanche_lt e.messageAcc_lt)

/-- Each segment is computed from the ACC that FINALIZE leaves, whole (R148). -/
theorem Engine.finalize_seg_toNat (e : Engine) (i : Fin 4) :
    (e.finalize.seg i).toNat = segmentExpand e.finalize.acc.toNat i.val := by
  rw [Engine.finalize_seg, Engine.finalize_acc_toNat, toNat_ofNat_of_lt_M (segmentExpand_lt _ _)]

/-- Settles O15: a performed FINALIZE writes the engine of R140's pseudocode, with Step 0 by the case of SEEN. -/
theorem finalizeResult : Obligations.FinalizeResult := by
  intro s herr hdone
  rw [← Engine.messageAcc_eq]
  exact exec_finalize_performed herr hdone s.pending s.responses

/-- Settles O17: the Step 2 result fits ACC although it is not reduced, and each segment ends in a reduction. -/
theorem finalizeLosesNoBit : Obligations.FinalizeLosesNoBit := by
  intro s herr hdone
  rw [← Engine.messageAcc_eq]
  exact ⟨_, exec_finalize_performed herr hdone s.pending s.responses, s.engine.finalize_acc_toNat,
    s.engine.finalize_seg_toNat⟩

/-- Settles O18: the ROM is R141's text, and Steps 1 and 2 are evaluated on it. -/
theorem placeholderValues : Obligations.PlaceholderValues :=
  ⟨rfl, by decide, avalanche_placeholderAcc⟩

/-! ### Step 2 (R143, R145) -/

/-- Settles O19: the sub-steps are R143's with the shifts of R8, and an XOR with a reduced operand stays below 2^32. -/
theorem avalancheIsNineSubSteps : Obligations.AvalancheIsNineSubSteps :=
  fun _ => ⟨rfl, fun ha => avalanche_lt (Nat.lt_succ_of_lt (Nat.lt_succ_of_le ha))⟩

/-- Settles O20: the rotator with its all-ones detector is the reduced left shift, so the rotator form computes AVALANCHE. -/
theorem rotatorDatapathComputesAvalanche : Obligations.RotatorDatapathComputesAvalanche := by
  intro x
  refine ⟨fun k hk => ⟨fun hx => ?_, fun hx => ?_⟩, shiftRight_seven_mod_M x, toNat_hwAvalanche x⟩
  · have hrot : rotateOrZero k x = x.rotateLeft k := if_neg hx
    rw [← hrot]
    exact shiftLeft_mod_M_eq_rotateOrZero hk x
  · have hzero : rotateOrZero k x = 0#32 := if_pos hx
    exact (shiftLeft_mod_M_eq_rotateOrZero hk x).trans (congrArg BitVec.toNat hzero)

/-! ### Reachable values of Step 2 (R146) -/

/-- Settles O21, by the backward search on words. -/
theorem avalancheNeverAllOnes : Obligations.AvalancheNeverAllOnes :=
  fun _ ha => Nat.le_pred_of_lt (avalanche_lt_M (Nat.lt_succ_of_lt (Nat.lt_succ_of_le ha)))

/-- Settles O22, by evaluating Step 1 and the sub-steps at the named values. -/
theorem allOnesIsReachedInsideStepTwo : Obligations.AllOnesIsReachedInsideStepTwo := by
  unfold Obligations.AllOnesIsReachedInsideStepTwo
  decide

theorem bitAt_allOnes (i : Fin 32) : bitAt 0xFFFFFFFF#32 i = true := by
  revert i
  decide

/-- A rotation commutes with the complement, so the two complements of sub-step L13 cancel (R146). -/
theorem xor_rotateLeft_13_complement (x : Word) :
    (x ^^^ 0xFFFFFFFF#32) ^^^ (x ^^^ 0xFFFFFFFF#32).rotateLeft 13 = x ^^^ x.rotateLeft 13 := by
  apply word_ext
  intro i
  simp only [bitAt_xor, bitAt_rotateLeft_13, bitAt_allOnes]
  cases bitAt x i <;> cases bitAt x (i + 19) <;> rfl

/-- Sub-step 1 maps a word and its complement to one value, unless the all-ones detector acts on either (R146). -/
theorem hwL13_complement {x : Word} (hzero : x ≠ 0#32) (hones : x ≠ 0xFFFFFFFF#32) :
    hwL13 (x ^^^ 0xFFFFFFFF#32) = hwL13 x := by
  have hcompl : x ^^^ 0xFFFFFFFF#32 ≠ 0xFFFFFFFF#32 := fun h =>
    hzero ((BitVec.xor_left_inj _).mp (h.trans BitVec.zero_xor.symm))
  rw [hwL13, hwL13, rotateOrZero, rotateOrZero, if_neg hcompl, if_neg hones]
  exact xor_rotateLeft_13_complement x

/-- The later sub-steps read only the value of the first. -/
theorem hwAvalanche_complement {x : Word} (hzero : x ≠ 0#32) (hones : x ≠ 0xFFFFFFFF#32) :
    hwAvalanche (x ^^^ 0xFFFFFFFF#32) = hwAvalanche x := by
  simp only [hwAvalanche, hwRound_eq, hwL13_complement hzero hones]

/-- Settles O23: sub-step 1 already gives both the same value. -/
theorem complementsCollide : Obligations.ComplementsCollide := by
  intro a hpos hlt
  have htoNat : (BitVec.ofNat 32 a).toNat = a := toNat_ofNat_of_lt_M hlt
  have hcompl : (BitVec.ofNat 32 a ^^^ 0xFFFFFFFF#32).toNat = 0xFFFFFFFF ^^^ a := by
    rw [BitVec.toNat_xor, htoNat, Nat.xor_comm]
    rfl
  have hzero : BitVec.ofNat 32 a ≠ 0#32 := fun h => hpos.ne' (htoNat.symm.trans (congrArg BitVec.toNat h))
  have hones : BitVec.ofNat 32 a ≠ 0xFFFFFFFF#32 := fun h => hlt.ne (htoNat.symm.trans (congrArg BitVec.toNat h))
  calc avalanche (0xFFFFFFFF ^^^ a)
      = (hwAvalanche (BitVec.ofNat 32 a ^^^ 0xFFFFFFFF#32)).toNat := by rw [toNat_hwAvalanche, hcompl]
    _ = (hwAvalanche (BitVec.ofNat 32 a)).toNat := by rw [hwAvalanche_complement hzero hones]
    _ = avalanche a := by rw [toNat_hwAvalanche, htoNat]

/-! ### Step 3 (R147, R149) -/

/-- Settles O24: the stages are R147's lines with the constants of R8, and the last one reduces. -/
theorem segmentFourLines : Obligations.SegmentFourLines :=
  fun a i => ⟨rfl, Nat.le_pred_of_lt (segmentExpand_lt a i)⟩

/-- Line 1 reduces, so a multiple of M more makes no difference (R149). -/
theorem segOffset_M_add (a i : Nat) : segOffset (Const.M + a) i = segOffset a i := by
  rw [segOffset, Nat.add_assoc, Nat.add_mod_left, ← segOffset]

/-- The later lines read only the value of the first. -/
theorem segmentExpand_M_add (a i : Nat) : segmentExpand (Const.M + a) i = segmentExpand a i := by
  rw [segmentExpand, segOffset_M_add, ← segmentExpand]

/-- Settles O25: line 1 reduces M to 0, and each width is that of the largest operands. -/
theorem segmentValueFacts : Obligations.SegmentValueFacts := by
  refine ⟨segmentExpand_M_add 0, by decide, fun a i ha hi => by omega, fun s k hs => ?_⟩
  have hxor : s ^^^ (s >>> k) < 2 ^ 32 := xor_shiftRight_lt k (lt_trans hs (by decide))
  exact ⟨hxor, by omega, by omega⟩

/-- K_MIX1 and K_MIX2 have no common factor with M (R149). -/
theorem multiplier_coprime_M {k : Nat} (hk : k = Const.kMix1 ∨ k = Const.kMix2) : Nat.Coprime k Const.M := by
  rcases hk with rfl | rfl
  · decide
  · decide

/-- Settles O26: a factor coprime to M can be cancelled mod M, and has every residue among its multiples. -/
theorem multipliersAreBijective : Obligations.MultipliersAreBijective := by
  intro k hk
  have hcoprime : Nat.Coprime k Const.M := multiplier_coprime_M hk
  constructor
  · intro a b ha hb hab
    have hmod : a ≡ b [MOD Const.M] := Nat.ModEq.cancel_right_of_coprime hcoprime.symm hab
    exact hmod.eq_of_lt_of_lt ha hb
  · intro c hc
    obtain ⟨a, ha, hac⟩ := Nat.exists_mul_mod_eq_of_coprime c hcoprime (by decide)
    refine ⟨a, ha, ?_⟩
    rw [Nat.mul_comm a k]
    exact hac.trans (Nat.mod_eq_of_lt hc)

end Sys2Proof.Machine

/-! SUPPORT. The formatter and the digest readout (43_format.md): HEXCHAR and FORMAT8 are injective, the digest is read
character by character, and before FINALIZE the readout is that of the reset engine. -/

namespace Sys2Proof.Machine

/-! ### HEXCHAR (R170) -/

theorem hexChar_toNat (d : BitVec 4) :
    (hexChar d).toNat = if d.toNat < 10 then 0x30 + d.toNat else 0x57 + d.toNat := by
  revert d
  decide

/-- Settles O43, by the two cases of HEXCHAR. -/
theorem hexCharValues : Obligations.HexCharValues := by
  intro d
  rw [hexChar_toNat]
  constructor
  · exact fun hlt => if_pos hlt
  · intro hge
    rw [if_neg hge.not_gt]
    omega

/-- HEXCHAR's values are the characters 0-9a-f (R176). -/
theorem hexChar_range (d : BitVec 4) :
    (0x30 ≤ (hexChar d).toNat ∧ (hexChar d).toNat ≤ 0x39) ∨ (0x61 ≤ (hexChar d).toNat ∧ (hexChar d).toNat ≤ 0x66) := by
  rw [hexChar_toNat]
  split <;> omega

/-- The digits 0-9 end below the letters a-f, so no two nibbles share a character. -/
theorem hexChar_injective : Function.Injective hexChar := by
  intro a b h
  have hcodes := congrArg BitVec.toNat h
  rw [hexChar_toNat, hexChar_toNat] at hcodes
  apply BitVec.eq_of_toNat_eq
  split at hcodes <;> split at hcodes <;> omega

/-! ### FORMAT8 (R171) -/

theorem nibble_eq_ofNat (s : Word) (k : Nat) : nibble s k = BitVec.ofNat 4 (s.toNat / 2 ^ (28 - 4 * k) % 16) := by
  apply BitVec.eq_of_toNat_eq
  simp [nibble, Nat.shiftRight_eq_div_pow]

/-- Bit i of a word is bit i mod 4 of its nibble 7 − i div 4. -/
theorem getLsbD_eq_getLsbD_nibble (s : Word) {i : Nat} (hi : i < 32) :
    s.getLsbD i = (nibble s (7 - i / 4)).getLsbD (i % 4) := by
  have hoffset : 28 - 4 * (7 - i / 4) + i % 4 = i := by omega
  have hbit : i % 4 < 4 := Nat.mod_lt i (by decide)
  simp [nibble, hoffset, hbit]

/-- The eight nibbles cover the word. -/
theorem word_eq_of_nibbles {a b : Word} (h : ∀ k < 8, nibble a k = nibble b k) : a = b := by
  apply BitVec.eq_of_getLsbD_eq
  intro i hi
  rw [getLsbD_eq_getLsbD_nibble a hi, getLsbD_eq_getLsbD_nibble b hi, h _ (by omega)]

theorem format8_getElem? (s : Word) {k : Nat} (hk : k < 8) : (format8 s)[k]? = some (hexChar (nibble s k)) := by
  simp [format8, Const.charsPerSegment, hk]

/-- No digit is dropped (R171). -/
theorem format8_injective : Function.Injective format8 := by
  intro a b h
  apply word_eq_of_nibbles
  intro k hk
  have hchars : some (hexChar (nibble a k)) = some (hexChar (nibble b k)) := by
    rw [← format8_getElem? a hk, ← format8_getElem? b hk, h]
  exact hexChar_injective (Option.some.inj hchars)

/-- Settles O44: each character is that of its nibble, the nibbles cover the word, and HEXCHAR tells them apart. -/
theorem formatEightDropsNothing : Obligations.FormatEightDropsNothing := by
  refine ⟨fun s => ⟨format8_length s, fun k => ?_⟩, fun _ _ h => format8_injective h⟩
  rw [format8_getElem? s k.isLt, nibble_eq_ofNat]

/-- Only the all-ones word is written as eight f's (R176). -/
theorem format8_eq_replicate_f_iff (s : Word) : format8 s = List.replicate 8 0x66#8 ↔ s = 0xFFFFFFFF#32 := by
  have hones : format8 0xFFFFFFFF#32 = List.replicate 8 0x66#8 := by decide
  rw [← hones]
  exact format8_injective.eq_iff

/-! ### The digest (R172, R174, R176) -/

theorem Engine.digest_getElem? (e : Engine) (j : Fin 32) : e.digest[j.val]? = some (e.digestChar j) := by
  rw [Engine.digest_eq_map_digestChar]
  simp

/-- Settles O45: both lists hold the character D[j] there. -/
theorem digestCharactersInOrder : Obligations.DigestCharactersInOrder := by
  intro e j
  have hgroup : (format8 (e.seg (⟨j.val / 8, by omega⟩ : Fin 4)))[j.val % 8]? = some (e.digestChar j) :=
    format8_getElem? _ (Nat.mod_lt _ (by decide))
  exact ⟨(e.digest_getElem? j).trans hgroup.symm, e.digest_getElem? j⟩

/-- Each character of the digest is that of some nibble. -/
theorem Engine.exists_hexChar_of_mem_digest {e : Engine} {c : Byte} (hc : c ∈ e.digest) : ∃ d, c = hexChar d := by
  rw [Engine.digest_eq_map_digestChar] at hc
  obtain ⟨j, -, rfl⟩ := List.mem_map.mp hc
  exact ⟨_, rfl⟩

/-- Settles O47: four groups of eight characters, each a HEXCHAR; the group of eight f's is that of 0xFFFFFFFF alone. -/
theorem digestIsThirtyTwoHexCharacters : Obligations.DigestIsThirtyTwoHexCharacters := by
  intro e
  refine ⟨by simp [Engine.digest_eq, Const.charsPerSegment], fun c hc => ?_, fun i hreduced hgroup => ?_⟩
  · obtain ⟨d, rfl⟩ := Engine.exists_hexChar_of_mem_digest hc
    exact hexChar_range d
  · rw [(format8_eq_replicate_f_iff _).mp hgroup] at hreduced
    exact absurd hreduced (by decide)

/-! ### Before FINALIZE (R175, R235, R238) -/

/-- In the ABSORB phase each segment is as after reset (R34 (b)). -/
theorem Engine.Inv.seg_eq_reset {e : Engine} (h : e.Inv) (hdone : e.done = false) (i : Fin 4) :
    e.seg i = Engine.reset.seg i := by
  obtain ⟨h0, h1, h2, h3⟩ := h.noEarlySegments hdone
  fin_cases i
  · exact h0
  · exact h1
  · exact h2
  · exact h3

theorem readReg_seg_reset (i : Fin 4) : readReg (.seg i) Engine.reset = 0#32 := by
  revert i
  decide

/-- Only DONE = 1 with ERR = 0 is a result, and the result is the digest (R238). -/
theorem digestResult_eq_some_iff (e : Engine) (d : List Byte) :
    digestResult e = some d ↔ e.done = true ∧ e.err = false ∧ d = e.digest := by
  simp [digestResult, and_assoc, eq_comm (a := d)]

/-- Settles O48: in the ABSORB phase the segments are those of reset, and SEG and HEX words read from the segments alone. -/
theorem noDigestBeforeFinalize : Obligations.NoDigestBeforeFinalize := by
  intro e hinv
  refine ⟨fun hdone => ?_, digestResult_eq_some_iff e⟩
  have hseg := hinv.seg_eq_reset hdone
  obtain ⟨-, -, hhex, -⟩ := resetValues
  constructor
  · intro i
    rw [readReg_eq_of_seg hseg (by simp) (by simp), readReg_seg_reset]
  · intro n
    rw [readReg_eq_of_seg hseg (by simp) (by simp)]
    exact hhex n

end Sys2Proof.Machine

/-! SUPPORT. The command errors as exceptions (60_exceptions.md): what an error record changes (R202, R203), what each command
does while poisoned (R204), and how the error state is left (R207). -/

namespace Sys2Proof.Machine

/-! ### Raising a command error (R202, R203) -/

/-- Settles O30: the two cases of the error record, on the engine, which is all that `raise` writes. -/
theorem raiseKeepsFirstError : Obligations.RaiseKeepsFirstError :=
  fun c s => ⟨fun herr => congrArg s.withEngine (recordError_fresh c herr),
    fun herr => congrArg s.withEngine (recordError_kept c herr)⟩

/-- ERR goes from 0 to 1 only by an error record: a restart clears it, and ABSORB and FINALIZE leave it (R27, R203). -/
theorem EngineEffect.exists_recordError {pending : List HostEvent} {e e' : Engine} (h : EngineEffect pending e e')
    (herr : e.err = false) (herr' : e'.err = true) : ∃ c, e' = e.recordError c := by
  cases h with
  | kept => simp [herr] at herr'
  | restarted _ _ _ _ => simp [Engine.reset] at herr'
  | recorded c => exact ⟨c, rfl⟩
  | absorbed v _ => simp [herr] at herr'
  | finalized _ => simp [herr] at herr'

/-- Settles O31: a new error is an error record, and an illegal word does nothing but record its error. -/
theorem erroringCommandHasNoOtherEffect : Obligations.ErroringCommandHasNoOtherEffect := by
  intro e w rest rs t hstep
  constructor
  · intro herr herr'
    obtain ⟨c, hc⟩ := (step_engineEffect hstep).exists_recordError herr herr'
    rw [hc, recordError_fresh c herr]
    exact ⟨rfl, code_range c⟩
  · intro d hd
    obtain rfl : _ = t := Host.Outcome.next.inj ((step_illegal e rest rs hd).symm.trans hstep)
    simp

/-! ### Commands while poisoned (R204) -/

/-- An illegal word adds nothing to a recorded error (R202, R204). -/
theorem performCommand_illegal_poisoned {w : Word} {d : DecodeError} {s : State} (hd : decode w = .error d)
    (herr : s.engine.err = true) : performCommand w s = .next s := by
  obtain ⟨-, hkeep⟩ := raiseKeepsFirstError (illegalWordError d) s
  rw [performCommand, hd]
  exact congrArg Host.Outcome.next (hkeep herr)

/-- Settles O32: ABSORB and FINALIZE check ERR first, and NOP and INIT do not read it. -/
theorem poisonedCommands : Obligations.PoisonedCommands := by
  rintro ⟨e, pending, rs⟩ (herr : e.err = true)
  refine ⟨fun cp => ?_, ?_, exec_nop _, exec_init e pending rs, fun w d hd => performCommand_illegal_poisoned hd herr⟩
  · rw [exec_absorb_eq, if_pos herr]
  · rw [exec_finalize_eq, if_pos herr]

/-! ### Leaving the error state (R207) -/

/-- While poisoned only the INIT word changes the engine, and it restarts it (R204, R207). -/
theorem CommandEffect.eq_or_init_of_poisoned {w : Word} {e e' : Engine} (h : CommandEffect w e e')
    (herr : e.err = true) : e' = e ∨ (w = 0x01000000#32 ∧ e' = Engine.reset) := by
  cases h with
  | illegal d _ => exact .inl (recordError_kept _ herr)
  | nop _ => exact .inl rfl
  | init hw => exact .inr ⟨eq_of_decode_init hw, rfl⟩
  | absorb _ _ hclear _ _ => simp [herr] at hclear
  | finalize _ hclear _ => simp [herr] at hclear
  | refusedOperand c _ _ _ => exact .inl (recordError_kept c herr)
  | poisoned _ _ _ => exact .inl rfl

/-- A restart always completes and leaves the reset engine, whatever the engine was (R101, R230). -/
theorem step_of_restarts {ev : HostEvent} (hev : ev.restarts) (e : Engine) (rest : List HostEvent) (rs : List Response) :
    step ⟨e, ev :: rest, rs⟩ = .next ⟨Engine.reset, rest, rs⟩ := by
  rcases hev with rfl | rfl
  · rfl
  · exact step_encoded .init e rest rs

/-- Settles O33: of what a step can do, only the reset event and the INIT word change a poisoned engine. -/
theorem onlyRestartLeavesTheErrorState : Obligations.OnlyRestartLeavesTheErrorState := by
  intro s t hstep
  constructor
  · intro herr
    rcases step_cases hstep with ⟨-, rfl⟩ | ⟨_, _, -, -, hkept, -⟩ | ⟨_, _, _, -, -, -, hkept, -⟩ |
      ⟨rest, hpending, -, hreset, -⟩ | ⟨w, rest, hpending, -, -, heffect⟩
    · exact .inl rfl
    · exact .inl hkept
    · exact .inl hkept
    · exact .inr ⟨hreset, .reset, rest, hpending, .inl rfl⟩
    · rcases heffect.eq_or_init_of_poisoned herr with hkept | ⟨rfl, hinit⟩
      · exact .inl hkept
      · exact .inr ⟨hinit, _, rest, hpending, .inr rfl⟩
  · intro ev rest hpending hev
    obtain ⟨e, _, rs⟩ := s
    obtain rfl : _ = ev :: rest := hpending
    obtain rfl : _ = t := Host.Outcome.next.inj ((step_of_restarts hev e rest rs).symm.trans hstep)
    exact ⟨rfl, rfl, rfl⟩

end Sys2Proof.Machine

/-! SUPPORT. The reset event (70_reset_and_hazards.md): between transactions it is a restart, and during one it is refused
(R230, R231). -/

namespace Sys2Proof.Machine

/-- A reset during a transaction is refused whatever the transaction and the state are (R231). -/
theorem performEvent_resetDuring (tr : Transaction) (s : State) :
    performEvent (.resetDuring tr) s = .refused .resetDuringTransaction := rfl

/-- Settles O53: a reset between transactions restarts the block as the INIT word does, whatever the engine was. -/
theorem resetEventClears : Obligations.ResetEventClears := by
  intro e rest rs
  have hreset : HostEvent.restarts .reset := .inl rfl
  refine ⟨step_of_restarts hreset e rest rs, fun tr => ?_⟩
  rw [step_event, performEvent_resetDuring]

end Sys2Proof.Machine
